-- ==== Sys2Proof/Word.lean ====
section
/-! DEFINITION. The word types of NETBLK: bytes, 16-bit halves, 32-bit words and 48-bit MAC addresses, and the
names of the two frame buffers. All values are unsigned (00_scope.md R9). -/

namespace Sys2Proof

/-- A byte of a frame buffer (10_state.md R22). -/
abbrev Byte := BitVec 8

/-- A 16-bit value: a frame field, a port number, a length. -/
abbrev Half := BitVec 16

/-- A 32-bit register or command word (10_state.md R25, 30_encoding.md R70). -/
abbrev Word := BitVec 32

/-- A 48-bit MAC address, the byte first on the wire most significant (00_scope.md R12). -/
abbrev Mac := BitVec 48

/-- The two frame buffers (10_state.md R22): RXBUF and TXBUF. -/
inductive BufSel where
  | rx
  | tx
deriving DecidableEq, Repr

end Sys2Proof
end

