-- ==== Sys2Proof/Syntax.lean ====
section
/-! DEFINITION. The commands of NETBLK, one constructor per row of spec/opcode_table.json (30_encoding.md R72).
`len` is the LEN field, an unsigned byte count (R71). NOP, ARP_HANDLE and MATCH_UDP ignore it but any value of it
is legal (R71), so it is kept and an encoding loses no bit. -/

namespace Sys2Proof

/-- A command. -/
inductive Instr where
  /-- NOP: no operation (44_control.md R165); `len` ignored. -/
  | nop (len : Nat)
  /-- CSUM: checksum of `len` bytes of buffer `buf` (40_checksum.md R111). -/
  | csum (buf : BufSel) (len : Nat)
  /-- ENCODE_UDP: build a frame around a payload of `len` bytes (41_codec.md R121). -/
  | encodeUdp (len : Nat)
  /-- DECODE: classify the frame of `len` bytes in RXBUF (41_codec.md R125). -/
  | decode (len : Nat)
  /-- ARP_HANDLE: answer the latched ARP request (42_arp.md R141); `len` ignored. -/
  | arpHandle (len : Nat)
  /-- MATCH_UDP: compare the latched destination (43_rx_filter.md R151); `len` ignored. -/
  | matchUdp (len : Nat)
deriving DecidableEq, Repr

end Sys2Proof
end

