-- ==== Sys2Proof/WellFormed.lean ====
section
/-! DEFINITION. Which commands a command word can spell: LEN is a 16-bit field (30_encoding.md R70), so a length
is at most 65535, and an assembler refuses a larger one (R75). -/

namespace Sys2Proof

/-- The LEN operand of a command. -/
def Instr.len : Instr → Nat
  | .nop n => n
  | .csum _ n => n
  | .encodeUdp n => n
  | .decode n => n
  | .arpHandle n => n
  | .matchUdp n => n

/-- The command has an encoding: its length fits LEN (30_encoding.md R70, R75). -/
abbrev WellFormed (i : Instr) : Prop := i.len ≤ 65535

end Sys2Proof
end

