-- ==== Sys2Proof/Decode.lean ====
section
/-! DEFINITION. Decoding a command word (30_encoding.md R70 to R74), total on every 32-bit word and rejecting by
name, and the encoder written from the same tables. -/

namespace Sys2Proof

/-- Why a command word is illegal (30_encoding.md R73, R74). -/
inductive DecodeError where
  /-- OP is 0x6 to 0xF. -/
  | reservedOpcode
  /-- RSV, bits [15:5], is not 0. -/
  | reservedBits
  /-- BUF is 1 with an opcode other than CSUM. -/
  | bufNotAllowed
deriving DecidableEq, Repr

/-- OP, bits [3:0] (R70). -/
def opField (w : Word) : BitVec 4 := w.extractLsb' 0 4

/-- BUF, bit [4] (R70). -/
def bufField (w : Word) : BitVec 1 := w.extractLsb' 4 1

/-- RSV, bits [15:5] (R70). -/
def rsvField (w : Word) : BitVec 11 := w.extractLsb' 5 11

/-- LEN, bits [31:16], as an unsigned byte count (R70, R71). -/
def lenField (w : Word) : Nat := (w.extractLsb' 16 16).toNat

/-- BUF = 0 reads RXBUF, BUF = 1 reads TXBUF (R70). -/
def bufOfBit (b : BitVec 1) : BufSel := if b = 1 then .tx else .rx

/-- The command a word spells, or why it is illegal (R72, R73). -/
def decodeWord (w : Word) : Except DecodeError Instr :=
  if rsvField w ≠ 0 then .error .reservedBits
  else if (opField w).toNat > 5 then .error .reservedOpcode
  else if bufField w = 1 ∧ opField w ≠ 1 then .error .bufNotAllowed
  else
    match (opField w).toNat with
    | 0 => .ok (.nop (lenField w))
    | 1 => .ok (.csum (bufOfBit (bufField w)) (lenField w))
    | 2 => .ok (.encodeUdp (lenField w))
    | 3 => .ok (.decode (lenField w))
    | 4 => .ok (.arpHandle (lenField w))
    | 5 => .ok (.matchUdp (lenField w))
    | _ => .error .reservedOpcode

/-- The instruction the decoder reads from the `nbits` low bits of `w`, bit 0 the least significant bit of the
command word; a command is one word, so no bit above 31 exists (R70; log 8). -/
def decodeTableWord (nbits w : Nat) : Option Instr :=
  match decodeWord (BitVec.ofNat 32 (w % 2 ^ nbits)) with
  | .ok i => some i
  | .error _ => none

/-- One match and mask pair of R73, with the mnemonic it stands for. -/
structure OpcodeRow where
  mnemonic : String
  bits : Word
  mask : Word
deriving DecidableEq, Repr

/-- The match and mask pairs of R73, as spec/opcode_table.json holds them. -/
def opcodeRows : List OpcodeRow :=
  [⟨"NOP", 0x00000000, 0x0000FFFF⟩,
   ⟨"CSUM", 0x00000001, 0x0000FFEF⟩,
   ⟨"ENCODE_UDP", 0x00000002, 0x0000FFFF⟩,
   ⟨"DECODE", 0x00000003, 0x0000FFFF⟩,
   ⟨"ARP_HANDLE", 0x00000004, 0x0000FFFF⟩,
   ⟨"MATCH_UDP", 0x00000005, 0x0000FFFF⟩]

/-- A word matches a row when it agrees with it under the mask. -/
def OpcodeRow.fits (r : OpcodeRow) (w : Word) : Bool := w &&& r.mask == r.bits

/-- The row of the table a command belongs to. -/
def Instr.mnemonic : Instr → String
  | .nop _ => "NOP"
  | .csum _ _ => "CSUM"
  | .encodeUdp _ => "ENCODE_UDP"
  | .decode _ => "DECODE"
  | .arpHandle _ => "ARP_HANDLE"
  | .matchUdp _ => "MATCH_UDP"

/-- The opcode of a command (R72). -/
def Instr.opcode : Instr → BitVec 4
  | .nop _ => 0
  | .csum _ _ => 1
  | .encodeUdp _ => 2
  | .decode _ => 3
  | .arpHandle _ => 4
  | .matchUdp _ => 5

/-- The BUF bit of a command: 1 for CSUM of TXBUF, 0 otherwise (R70). -/
def Instr.bufBit : Instr → BitVec 1
  | .csum .tx _ => 1
  | .csum .rx _ => 0
  | .nop _ => 0
  | .encodeUdp _ => 0
  | .decode _ => 0
  | .arpHandle _ => 0
  | .matchUdp _ => 0

/-- The command word of a well-formed command: LEN, RSV = 0, BUF, OP from the high bits down (R70). -/
def encode (i : Instr) : Word :=
  BitVec.ofNat 16 i.len ++ 0#11 ++ i.bufBit ++ i.opcode

end Sys2Proof
end

