-- ==== Sys2Proof/Config.lean ====
section
/-! DEFINITION. What one instance of NETBLK fixes (the two parameters of 00_scope.md R8) and the values the spec
leaves open, each an opaque constant: nothing can be proved of which value it is. -/

namespace Sys2Proof.Config

/-- The parameters of 00_scope.md R8: `bufBytes` is P_BUF_BYTES, `minFrame` is P_MIN_FRAME. -/
structure Params where
  bufBytes : Nat
  minFrame : Nat
deriving DecidableEq, Repr

/-- The defaults of R8: 2048-byte buffers and a 60-byte minimum frame. -/
def Params.standard : Params := ⟨2048, 60⟩

/-- The legal range of R8 and 20_memory.md R51. -/
abbrev Params.Legal (p : Params) : Prop :=
  64 ≤ p.bufBytes ∧ p.bufBytes ≤ 4096 ∧ p.bufBytes % 4 = 0 ∧ p.minFrame ≤ p.bufBytes

/-- DESIGN CHOICE (log 2): byte `i` of buffer `b` as the `epoch`-th hardware reset left it, which
70_reset_and_hazards.md R200 leaves unspecified, each byte on its own. -/
opaque powerOnByte (epoch : Nat) (b : BufSel) (i : Nat) : Byte

/-- DESIGN CHOICE (log 5): what the `draw`-th read of the pending command's write set returns, which 20_memory.md
R59 leaves unspecified, drawn anew on each read. -/
opaque busyRead (draw : Nat) : Word

/-- DESIGN CHOICE (log 4): how many host turns pass between the acceptance of the `n`-th command and its engine
step, which 44_control.md R161 and R164 leave open but finite. -/
opaque engineDelay (n : Nat) : Nat

end Sys2Proof.Config
end

