-- ==== Sys2Proof/Machine/State.lean ====
section
/-! DEFINITION. The state of NETBLK as plain data (10_state.md R22 and the rules it names), the inputs a host gives
it, and the state after a hardware reset (70_reset_and_hazards.md R200, R201). Registers are stored in the bits
their row of 10_state.md R25 lists; every other bit is RAZ/WI and holds nothing. -/

namespace Sys2Proof.Machine

/-- Why the machine stops. NETBLK raises no trap and no command can stop it (60_exceptions.md R180, 44_control.md
R164), and a host access that is an error completes with BUSERR set (20_memory.md R55), so there is no reason. -/
inductive Fault where
deriving DecidableEq, Repr

/-- Why an instruction has no meaning. -/
inductive Refusal where
  /-- Raised by `exec` for a command that is not modelled yet; no arm raises it now. Safe: nothing is claimed. -/
  | notModelled (mnemonic : String)
deriving DecidableEq, Repr

/-- A frame buffer: the bytes something has written since the last hardware reset, as (index, byte) pairs with
strictly rising indices (10_state.md R22). An index that is not listed reads as no value here; the byte it holds
is a free value (`State.byteAt`, log 2). -/
abbrev Memory := List Host.Cell

/-- RX_CLASS (10_state.md R42); the value 3 is reserved and never written. -/
inductive RxClass where
  | unhandled
  | arp
  | udp
deriving DecidableEq, Repr

/-- The error codes of STATUS.ERR (60_exceptions.md R181); 4 to 15 are reserved and never produced. -/
inductive ErrCode where
  | noError
  | illegalCmd
  | mtuExceeded
  | range
deriving DecidableEq, Repr

/-- MATCH_RESULT.KIND (10_state.md R47); the value 3 is reserved and never written. -/
inductive MatchKind where
  | noMatch
  | unicast
  | multicast
deriving DecidableEq, Repr

/-- A `_HI` and `_LO` register pair: the first two and the last four bytes of a MAC address (10_state.md R34). -/
structure MacReg where
  hi : Half
  lo : Word
deriving DecidableEq, Repr

/-- The configuration registers, 0x010 to 0x04C (10_state.md R30 to R39). -/
structure ConfigRegs where
  mtu       : Half
  rxCap     : Half
  csumOff   : Half
  ipId      : Half
  localMac  : MacReg
  localIp   : Word
  localPort : Half
  mcastEn   : Bool
  mcastIp   : Word
  mcastPort : Half
  dstMac    : MacReg
  dstIp     : Word
  dstPort   : Half
deriving DecidableEq, Repr

/-- The latched decode (00_scope.md R14): RX_CLASS and the registers of 10_state.md R43 to R46. -/
structure Latch where
  rxClass   : RxClass
  ethertype : Half
  ethDst    : MacReg
  ethSrc    : MacReg
  ipSrc     : Word
  ipDst     : Word
  ipProto   : Half
  ipTotlen  : Half
  udpSport  : Half
  udpDport  : Half
  udpLen    : Half
  payLen    : Half
  arpHrdPro : Word
  arpLenOp  : Word
  arpSha    : MacReg
  arpSpa    : Word
  arpTha    : MacReg
  arpTpa    : Word
deriving DecidableEq, Repr

/-- The registers of the map of 10_state.md R25, in the order of its rows. -/
inductive Reg where
  | id | ctrl | status | cmd
  | mtu | rxCap | csumOff | ipId
  | localMacHi | localMacLo | localIp | localPort
  | mcastCfg | mcastIp | mcastPort
  | dstMacHi | dstMacLo | dstIp | dstPort
  | csumResult | txLen | rxClass | ethertype
  | ethDstHi | ethDstLo | ethSrcHi | ethSrcLo
  | ipSrc | ipDst | ipProto | ipTotlen
  | udpSport | udpDport | udpLen | payLen | payOff
  | arpHrdPro | arpLenOp | arpShaHi | arpShaLo | arpSpa
  | arpThaHi | arpThaLo | arpTpa
  | arpResult | matchResult
deriving DecidableEq, Repr

/-- The width of a host access: 1, 2 or 4 bytes (20_memory.md R54). -/
inductive Width where
  | w8
  | w16
  | w32
deriving DecidableEq, Repr

/-- The data of a host access, an 8n-bit value (00_scope.md R11). -/
inductive HostData where
  | byte (v : Byte)
  | half (v : Half)
  | word (v : Word)
deriving DecidableEq, Repr

/-- A host address: 14 bits (20_memory.md R50). -/
abbrev HostAddr := BitVec 14

/-- One thing the outside does to the block. -/
inductive Input where
  /-- MemRead(a, n) (00_scope.md R11). -/
  | read (a : HostAddr) (n : Width)
  /-- MemWrite(a, n, v), the width being that of the data (00_scope.md R11). -/
  | write (a : HostAddr) (v : HostData)
  /-- The host program's `wait`: `rd32 0x008` until BUSY reads 0 (30_encoding.md R76). -/
  | wait
  /-- The hardware reset input is asserted and released (70_reset_and_hazards.md R200; log 10). -/
  | hwReset
deriving DecidableEq, Repr

/-- Everything 10_state.md R22 gives the block, the two parameters of 00_scope.md R8, and the model's own fields. -/
structure State where
  /-- P_BUF_BYTES and P_MIN_FRAME: fixed for one block, no step changes them (10_state.md R23; log 1). -/
  params     : Config.Params
  /-- CTRL.IRQ_EN (10_state.md R27). -/
  irqEn      : Bool
  /-- STATUS.DONE (10_state.md R28). -/
  done       : Bool
  /-- STATUS.HAZ, sticky (10_state.md R28). -/
  haz        : Bool
  /-- STATUS.BUSERR, sticky (10_state.md R28). -/
  busErr     : Bool
  /-- STATUS.ERR (10_state.md R28). -/
  err        : ErrCode
  /-- STATUS.LAST_OP (10_state.md R28). -/
  lastOp     : BitVec 4
  /-- PEND (10_state.md R24); STATUS.BUSY is 1 exactly while it is not `none`. -/
  pend       : Option Word
  /-- The configuration registers (10_state.md R30 to R39). -/
  cfg        : ConfigRegs
  /-- CSUM_RESULT (10_state.md R40). -/
  csumResult : Half
  /-- TX_LEN (10_state.md R41). -/
  txLen      : Half
  /-- The latched decode (10_state.md R42 to R46). -/
  latch      : Latch
  /-- ARP_RESULT.REPLIED (10_state.md R47). -/
  arpReplied : Bool
  /-- MATCH_RESULT.KIND (10_state.md R47). -/
  matchKind  : MatchKind
  /-- RXBUF (10_state.md R48). -/
  rx         : Memory
  /-- TXBUF (10_state.md R48). -/
  tx         : Memory
  /-- The model's own: how many hardware resets there have been (log 2). -/
  epoch      : Nat
  /-- The model's own: host turns left before the pending command's engine step (log 4). -/
  engineWait : Nat
  /-- The model's own: how many commands have been accepted (log 4). -/
  accepted   : Nat
  /-- The model's own: how many unspecified reads there have been (log 5). -/
  draws      : Nat
  /-- The inputs still to come, in order (20_memory.md R62; log 7). -/
  hostIn     : List Input
  /-- What the host's reads have returned, newest first (log 7). -/
  hostOut    : List HostData
deriving DecidableEq, Repr

/-- A MAC register pair at reset (10_state.md R25). -/
def MacReg.zero : MacReg := ⟨0, 0⟩

/-- The configuration registers at reset, all 0 (70_reset_and_hazards.md R201). -/
def ConfigRegs.reset : ConfigRegs where
  mtu := 0
  rxCap := 0
  csumOff := 0
  ipId := 0
  localMac := .zero
  localIp := 0
  localPort := 0
  mcastEn := false
  mcastIp := 0
  mcastPort := 0
  dstMac := .zero
  dstIp := 0
  dstPort := 0

/-- The latched decode at reset, and as DECODE clears it, all 0 (70_reset_and_hazards.md R201, 41_codec.md R126). -/
def Latch.cleared : Latch where
  rxClass := .unhandled
  ethertype := 0
  ethDst := .zero
  ethSrc := .zero
  ipSrc := 0
  ipDst := 0
  ipProto := 0
  ipTotlen := 0
  udpSport := 0
  udpDport := 0
  udpLen := 0
  payLen := 0
  arpHrdPro := 0
  arpLenOp := 0
  arpSha := .zero
  arpSpa := 0
  arpTha := .zero
  arpTpa := 0

/-- A block with parameters `p` right after a hardware reset (70_reset_and_hazards.md R200): every register at
its value of R201, PEND none, and no byte of either buffer known. -/
def State.resetWith (p : Config.Params) : State where
  params := p
  irqEn := false
  done := false
  haz := false
  busErr := false
  err := .noError
  lastOp := 0
  pend := none
  cfg := .reset
  csumResult := 0
  txLen := 0
  latch := .cleared
  arpReplied := false
  matchKind := .noMatch
  rx := []
  tx := []
  epoch := 0
  engineWait := 0
  accepted := 0
  draws := 0
  hostIn := []
  hostOut := []

/-- The machine right after reset, with the default parameters of 00_scope.md R8 (log 1). -/
def State.reset : State := State.resetWith Config.Params.standard

end Sys2Proof.Machine
end

