-- ==== Sys2Proof/Machine/Ops.lean ====
section
/-! DEFINITION. The named operations over the state: the buffers as memories, a command's acceptance (44_control.md
R160), the one shared end of every command (R162) and of every error (00_scope.md R11), and the two resets. -/

namespace Sys2Proof.Machine

/-! ## Buffers -/

/-- The byte listed for index `i`, if any. -/
def Memory.read? : Memory → Nat → Option Byte
  | [], _ => none
  | (k, v) :: m, i => if i = k then some v else if i < k then none else Memory.read? m i

/-- Store `v` at index `i`, keeping the indices strictly rising. -/
def Memory.write : Memory → Nat → Byte → Memory
  | [], i, v => [(i, v)]
  | (k, w) :: m, i, v =>
    if i = k then (i, v) :: m
    else if i < k then (i, v) :: (k, w) :: m
    else (k, w) :: Memory.write m i v

/-- Store the bytes of `bs` at consecutive indices from `i` up. -/
def Memory.writeList (m : Memory) (i : Nat) : List Byte → Memory
  | [] => m
  | b :: bs => Memory.writeList (Memory.write m i b) (i + 1) bs

/-- Every listed index is at least `lo`, and the indices rise strictly. -/
def Memory.risesFrom : Nat → Memory → Bool
  | _, [] => true
  | lo, (k, _) :: m => decide (lo ≤ k) && Memory.risesFrom (k + 1) m

/-- The canonical form of a buffer: strictly rising indices. An unlisted index reads as no value, so no listed
byte equals it. -/
def Memory.wf (m : Memory) : Bool := Memory.risesFrom 0 m

/-- Every listed index is below `n`. -/
def Memory.below (n : Nat) (m : Memory) : Bool := m.all fun c => decide (c.1 < n)

/-- The buffer a selector names. -/
def State.buf (s : State) : BufSel → Memory
  | .rx => s.rx
  | .tx => s.tx

/-- Replace the buffer a selector names. -/
def State.setBuf (s : State) : BufSel → Memory → State
  | .rx, m => { s with rx := m }
  | .tx, m => { s with tx := m }

/-- `RX[i]` or `TX[i]` (00_scope.md R10): the byte last written there, or, where nothing has written since the
last hardware reset, the free byte that reset left (70_reset_and_hazards.md R200; log 2). -/
def State.byteAt (s : State) (b : BufSel) (i : Nat) : Byte :=
  (Memory.read? (s.buf b) i).getD (Config.powerOnByte s.epoch b i)

/-- Store bytes in a buffer from index `i` up. -/
def State.storeBytes (s : State) (b : BufSel) (i : Nat) (bs : List Byte) : State :=
  s.setBuf b (Memory.writeList (s.buf b) i bs)

/-! ## The life of a command -/

/-- STATUS.BUSY: 1 exactly while PEND is not `none` (10_state.md R24). -/
def State.busy (s : State) : Bool := s.pend.isSome

/-- What acceptance does to the state (44_control.md R160): PEND holds the word, DONE and ERR are cleared, LAST_OP
is the opcode. `delay` host turns pass before the engine's step (log 4). -/
def loadCommand (w : Word) (delay : Nat) (s : State) : State :=
  { s with
    pend := some w
    done := false
    err := .noError
    lastOp := opField w
    engineWait := delay }

/-- A host write of `w` to CMD (44_control.md R160): dropped with HAZ while BUSY, accepted otherwise. -/
def offerCommand (w : Word) (s : State) : State :=
  if s.busy then { s with haz := true }
  else loadCommand w (Config.engineDelay s.accepted) { s with accepted := s.accepted + 1 }

/-- The word the engine performs in its next step, if it is due: PEND once its delay has passed (R161). -/
def dueCommand (s : State) : Option Word :=
  if s.engineWait = 0 then s.pend else none

/-- Completion (44_control.md R162): ERR holds the code, DONE is set, BUSY is cleared and PEND is none. -/
def complete (code : ErrCode) (s : State) : State :=
  { s with err := code, done := true, pend := none }

/-- `raise Error(code)` (00_scope.md R11, 60_exceptions.md R180): the command ends at once, with no effect other
than its completion. NETBLK's one exception; nothing is saved and there is no return (60_exceptions.md R187). -/
def raiseError (code : ErrCode) (s : State) : State := complete code s

/-! ## Resets -/

/-- A soft reset (70_reset_and_hazards.md R202): every register and PEND take their reset values and the buffers
keep their contents. The parameters and the model's own record of the outside stay (log 10). -/
def softReset (s : State) : State :=
  { State.resetWith s.params with
    rx := s.rx
    tx := s.tx
    epoch := s.epoch
    accepted := s.accepted
    draws := s.draws
    hostIn := s.hostIn
    hostOut := s.hostOut }

/-- A hardware reset (70_reset_and_hazards.md R200): as a soft reset, and every byte of both buffers is
unspecified anew (log 2, log 10). -/
def hardReset (s : State) : State :=
  { softReset s with rx := [], tx := [], epoch := s.epoch + 1 }

end Sys2Proof.Machine
end

