-- ==== Sys2Proof/Machine/Operands.lean ====
section
/-! DEFINITION. The forms in which bytes are read and written: the big-endian primitives of 00_scope.md R10 for
frames, the little-endian lanes of 20_memory.md R53 for the host port, the 48-bit names of 10_state.md R25, and
the byte slice CSUM reads. -/

namespace Sys2Proof.Machine

/-! ## Big-endian frame fields (00_scope.md R10, 20_memory.md R56) -/

/-- `BE16(B, i) = {B[i], B[i+1]}`, of a buffer read byte by byte. -/
def be16At (rd : Nat → Byte) (i : Nat) : Half := rd i ++ rd (i + 1)

/-- `BE32(B, i)`. -/
def be32At (rd : Nat → Byte) (i : Nat) : Word := rd i ++ rd (i + 1) ++ rd (i + 2) ++ rd (i + 3)

/-- `BE48(B, i)`. -/
def be48At (rd : Nat → Byte) (i : Nat) : Mac :=
  rd i ++ rd (i + 1) ++ rd (i + 2) ++ rd (i + 3) ++ rd (i + 4) ++ rd (i + 5)

/-- The bytes `PutBE16` writes, lowest index first. -/
def be16 (v : Half) : List Byte := [v.extractLsb' 8 8, v.extractLsb' 0 8]

/-- The bytes `PutBE32` writes, lowest index first. -/
def be32 (v : Word) : List Byte :=
  [v.extractLsb' 24 8, v.extractLsb' 16 8, v.extractLsb' 8 8, v.extractLsb' 0 8]

/-- The bytes `PutBE48` writes, lowest index first. -/
def be48 (v : Mac) : List Byte :=
  [v.extractLsb' 40 8, v.extractLsb' 32 8, v.extractLsb' 24 8,
   v.extractLsb' 16 8, v.extractLsb' 8 8, v.extractLsb' 0 8]

/-! ## 48-bit names (10_state.md R25) -/

/-- `{HI[15:0], LO[31:0]}`. -/
def MacReg.value (m : MacReg) : Mac := m.hi ++ m.lo

/-- Writing a 48-bit name writes both halves. -/
def MacReg.ofMac (v : Mac) : MacReg := ⟨v.extractLsb' 32 16, v.extractLsb' 0 32⟩

/-! ## Little-endian host lanes (20_memory.md R53) -/

/-- The width in bytes. -/
def Width.bytes : Width → Nat
  | .w8 => 1
  | .w16 => 2
  | .w32 => 4

/-- The width of a datum. -/
def HostData.width : HostData → Width
  | .byte _ => .w8
  | .half _ => .w16
  | .word _ => .w32

/-- The low 8n bits of a word, as the datum of an n-byte access. -/
def HostData.ofWord : Width → Word → HostData
  | .w8, v => .byte (v.extractLsb' 0 8)
  | .w16, v => .half (v.extractLsb' 0 16)
  | .w32, v => .word v

/-- The bytes a write stores, `B[i]` first: `B[i+k] <- v[8k+7 : 8k]`. -/
def HostData.lanes : HostData → List Byte
  | .byte v => [v]
  | .half v => [v.extractLsb' 0 8, v.extractLsb' 8 8]
  | .word v => [v.extractLsb' 0 8, v.extractLsb' 8 8, v.extractLsb' 16 8, v.extractLsb' 24 8]

/-- `{B[i+n-1], ..., B[i]}`, with `B[i]` in bits [7:0]. -/
def lanesAt (rd : Nat → Byte) (i : Nat) : Width → HostData
  | .w8 => .byte (rd i)
  | .w16 => .half (rd (i + 1) ++ rd i)
  | .w32 => .word (rd (i + 3) ++ rd (i + 2) ++ rd (i + 1) ++ rd i)

/-! ## Slices -/

/-- The `n` bytes `B[off .. off+n-1]`, lowest index first. -/
def sliceAt (rd : Nat → Byte) (off : Nat) : Nat → List Byte
  | 0 => []
  | n + 1 => rd off :: sliceAt rd (off + 1) n

end Sys2Proof.Machine
end

