-- ==== Sys2Proof/Machine/Flags.lean ====
section
/-! DEFINITION. The status and control words as software reads them, the values the enumerated fields stand for,
and the interrupt output. -/

namespace Sys2Proof.Machine

/-- The code of an error in STATUS.ERR (60_exceptions.md R181). -/
def ErrCode.bits : ErrCode → BitVec 4
  | .noError => 0
  | .illegalCmd => 1
  | .mtuExceeded => 2
  | .range => 3

/-- The value of RX_CLASS[1:0] (10_state.md R42). -/
def RxClass.bits : RxClass → BitVec 2
  | .unhandled => 0
  | .arp => 1
  | .udp => 2

/-- The value of MATCH_RESULT.KIND (10_state.md R47). -/
def MatchKind.bits : MatchKind → BitVec 2
  | .noMatch => 0
  | .unicast => 1
  | .multicast => 2

/-- A flag as a bit. -/
def flagBit (b : Bool) : BitVec 1 := if b then 1 else 0

/-- STATUS as it reads (10_state.md R28): LAST_OP [11:8], ERR [7:4], BUSERR, HAZ, DONE, BUSY from bit 3 down. -/
def statusWord (s : State) : Word :=
  0#20 ++ s.lastOp ++ s.err.bits ++ flagBit s.busErr ++ flagBit s.haz ++ flagBit s.done ++ flagBit s.busy

/-- CTRL as it reads (10_state.md R27): IRQ_EN in bit 0, SRST always 0. -/
def ctrlWord (s : State) : Word := 0#31 ++ flagBit s.irqEn

/-- A write of `v` to STATUS (10_state.md R28, 44_control.md R169): bits 1, 2 and 3 clear DONE, HAZ and BUSERR
where written as 1, and every other bit is ignored. -/
def writeStatus (v : Word) (s : State) : State :=
  { s with
    done := s.done && !v.getLsbD 1
    haz := s.haz && !v.getLsbD 2
    busErr := s.busErr && !v.getLsbD 3 }

/-- A write of `v` to CTRL (10_state.md R27, 44_control.md R169): bit 1 performs a soft reset and then bit 0 is
ignored (70_reset_and_hazards.md R202); otherwise bit 0 is stored in IRQ_EN. -/
def writeCtrl (v : Word) (s : State) : State :=
  if v.getLsbD 1 then softReset s else { s with irqEn := v.getLsbD 0 }

/-- The interrupt output (60_exceptions.md R186): a level, `IRQ_EN AND DONE`. -/
def State.irq (s : State) : Bool := s.irqEn && s.done

end Sys2Proof.Machine
end

