-- ==== Sys2Proof/Machine/Registers.lean ====
section
/-! DEFINITION. The register map (10_state.md R25): where each register stands, what a read returns, what a write
does, and which registers a pending command will write (20_memory.md R59). -/

namespace Sys2Proof.Machine

/-- The host address of a register (10_state.md R25). -/
def Reg.addr : Reg → Nat
  | .id => 0x000
  | .ctrl => 0x004
  | .status => 0x008
  | .cmd => 0x00C
  | .mtu => 0x010
  | .rxCap => 0x014
  | .csumOff => 0x018
  | .ipId => 0x01C
  | .localMacHi => 0x020
  | .localMacLo => 0x024
  | .localIp => 0x028
  | .localPort => 0x02C
  | .mcastCfg => 0x030
  | .mcastIp => 0x034
  | .mcastPort => 0x038
  | .dstMacHi => 0x040
  | .dstMacLo => 0x044
  | .dstIp => 0x048
  | .dstPort => 0x04C
  | .csumResult => 0x080
  | .txLen => 0x084
  | .rxClass => 0x088
  | .ethertype => 0x08C
  | .ethDstHi => 0x090
  | .ethDstLo => 0x094
  | .ethSrcHi => 0x098
  | .ethSrcLo => 0x09C
  | .ipSrc => 0x0A0
  | .ipDst => 0x0A4
  | .ipProto => 0x0A8
  | .ipTotlen => 0x0AC
  | .udpSport => 0x0B0
  | .udpDport => 0x0B4
  | .udpLen => 0x0B8
  | .payLen => 0x0BC
  | .payOff => 0x0C0
  | .arpHrdPro => 0x0C4
  | .arpLenOp => 0x0C8
  | .arpShaHi => 0x0CC
  | .arpShaLo => 0x0D0
  | .arpSpa => 0x0D4
  | .arpThaHi => 0x0D8
  | .arpThaLo => 0x0DC
  | .arpTpa => 0x0E0
  | .arpResult => 0x0E4
  | .matchResult => 0x0E8

/-- Every register of the map, in address order. -/
def Reg.all : List Reg :=
  [.id, .ctrl, .status, .cmd,
   .mtu, .rxCap, .csumOff, .ipId, .localMacHi, .localMacLo, .localIp, .localPort,
   .mcastCfg, .mcastIp, .mcastPort, .dstMacHi, .dstMacLo, .dstIp, .dstPort,
   .csumResult, .txLen, .rxClass, .ethertype, .ethDstHi, .ethDstLo, .ethSrcHi, .ethSrcLo,
   .ipSrc, .ipDst, .ipProto, .ipTotlen, .udpSport, .udpDport, .udpLen, .payLen, .payOff,
   .arpHrdPro, .arpLenOp, .arpShaHi, .arpShaLo, .arpSpa, .arpThaHi, .arpThaLo, .arpTpa,
   .arpResult, .matchResult]

/-- The register at a host address, if the map lists one there. -/
def regAt (a : Nat) : Option Reg := Reg.all.find? fun r => r.addr == a

/-- The configuration registers of 20_memory.md R58: those at 0x010 to 0x04C. -/
def Reg.isConfig (r : Reg) : Bool := decide (0x010 ≤ r.addr) && decide (r.addr ≤ 0x04C)

/-- What a register reads (10_state.md R25 to R47): its bits, and 0 in every bit its row does not list. -/
def readReg (r : Reg) (s : State) : Word :=
  match r with
  | .id => 0x4E455401
  | .ctrl => ctrlWord s
  | .status => statusWord s
  | .cmd => 0
  | .mtu => s.cfg.mtu.setWidth 32
  | .rxCap => s.cfg.rxCap.setWidth 32
  | .csumOff => s.cfg.csumOff.setWidth 32
  | .ipId => s.cfg.ipId.setWidth 32
  | .localMacHi => s.cfg.localMac.hi.setWidth 32
  | .localMacLo => s.cfg.localMac.lo
  | .localIp => s.cfg.localIp
  | .localPort => s.cfg.localPort.setWidth 32
  | .mcastCfg => (flagBit s.cfg.mcastEn).setWidth 32
  | .mcastIp => s.cfg.mcastIp
  | .mcastPort => s.cfg.mcastPort.setWidth 32
  | .dstMacHi => s.cfg.dstMac.hi.setWidth 32
  | .dstMacLo => s.cfg.dstMac.lo
  | .dstIp => s.cfg.dstIp
  | .dstPort => s.cfg.dstPort.setWidth 32
  | .csumResult => s.csumResult.setWidth 32
  | .txLen => s.txLen.setWidth 32
  | .rxClass => s.latch.rxClass.bits.setWidth 32
  | .ethertype => s.latch.ethertype.setWidth 32
  | .ethDstHi => s.latch.ethDst.hi.setWidth 32
  | .ethDstLo => s.latch.ethDst.lo
  | .ethSrcHi => s.latch.ethSrc.hi.setWidth 32
  | .ethSrcLo => s.latch.ethSrc.lo
  | .ipSrc => s.latch.ipSrc
  | .ipDst => s.latch.ipDst
  | .ipProto => s.latch.ipProto.setWidth 32
  | .ipTotlen => s.latch.ipTotlen.setWidth 32
  | .udpSport => s.latch.udpSport.setWidth 32
  | .udpDport => s.latch.udpDport.setWidth 32
  | .udpLen => s.latch.udpLen.setWidth 32
  | .payLen => s.latch.payLen.setWidth 32
  | .payOff => 42
  | .arpHrdPro => s.latch.arpHrdPro
  | .arpLenOp => s.latch.arpLenOp
  | .arpShaHi => s.latch.arpSha.hi.setWidth 32
  | .arpShaLo => s.latch.arpSha.lo
  | .arpSpa => s.latch.arpSpa
  | .arpThaHi => s.latch.arpTha.hi.setWidth 32
  | .arpThaLo => s.latch.arpTha.lo
  | .arpTpa => s.latch.arpTpa
  | .arpResult => (flagBit s.arpReplied).setWidth 32
  | .matchResult => s.matchKind.bits.setWidth 32

/-- The configuration registers after a write of `v` to one of them: the bits its row lists are stored, the rest
ignored (10_state.md R25, R30 to R39). A register that is no configuration register changes none. -/
def writeConfig (r : Reg) (v : Word) (c : ConfigRegs) : ConfigRegs :=
  match r with
  | .mtu => { c with mtu := v.extractLsb' 0 16 }
  | .rxCap => { c with rxCap := v.extractLsb' 0 16 }
  | .csumOff => { c with csumOff := v.extractLsb' 0 16 }
  | .ipId => { c with ipId := v.extractLsb' 0 16 }
  | .localMacHi => { c with localMac := { c.localMac with hi := v.extractLsb' 0 16 } }
  | .localMacLo => { c with localMac := { c.localMac with lo := v } }
  | .localIp => { c with localIp := v }
  | .localPort => { c with localPort := v.extractLsb' 0 16 }
  | .mcastCfg => { c with mcastEn := v.getLsbD 0 }
  | .mcastIp => { c with mcastIp := v }
  | .mcastPort => { c with mcastPort := v.extractLsb' 0 16 }
  | .dstMacHi => { c with dstMac := { c.dstMac with hi := v.extractLsb' 0 16 } }
  | .dstMacLo => { c with dstMac := { c.dstMac with lo := v } }
  | .dstIp => { c with dstIp := v }
  | .dstPort => { c with dstPort := v.extractLsb' 0 16 }
  | _ => c

/-- A 32-bit host write of `v` to a register (20_memory.md R52, R58): CTRL and STATUS always act, CMD offers a
command, a configuration register is written or, while BUSY, the write is dropped with HAZ set, and a write to a
read-only register is ignored. -/
def writeReg (r : Reg) (v : Word) (s : State) : State :=
  if r = .ctrl then writeCtrl v s
  else if r = .status then writeStatus v s
  else if r = .cmd then offerCommand v s
  else if r.isConfig then
    if s.busy then { s with haz := true } else { s with cfg := writeConfig r v s.cfg }
  else s

/-- The registers the command with opcode `op` will write (20_memory.md R59, the table of W(op)). -/
def inWriteSet (op : BitVec 4) (r : Reg) : Bool :=
  match op.toNat with
  | 1 => r == .csumResult
  | 2 => r == .csumResult || r == .txLen
  | 3 => r == .rxClass || (decide (0x08C ≤ r.addr) && decide (r.addr ≤ 0x0E0) && r != .payOff)
  | 4 => r == .arpResult || r == .txLen
  | 5 => r == .matchResult
  | _ => false

/-- Whether the command with opcode `op` will write bytes of the buffer (20_memory.md R59): every TXBUF byte, for
ENCODE_UDP and ARP_HANDLE. -/
def bufInWriteSet (op : BitVec 4) (b : BufSel) : Bool :=
  b == .tx && (op == 2 || op == 4)

end Sys2Proof.Machine
end

