-- ==== Sys2Proof/Machine/Frame.lean ====
section
/-! DEFINITION. The wire formats (30_encoding.md R78 to R83) as byte lists in frame order, and the one operation
that builds a frame in TXBUF. -/

namespace Sys2Proof.Machine

/-! ## Named constants (30_encoding.md R82) -/

/-- ETYPE_IPV4. -/
def etypeIpv4 : Half := 0x0800
/-- ETYPE_ARP. -/
def etypeArp : Half := 0x0806
/-- IPPROTO_UDP. -/
def ipProtoUdp : Byte := 17
/-- VIHL_45: version 4, IHL 5. -/
def vihl45 : Byte := 0x45
/-- TTL_64. -/
def ttl64 : Byte := 64
/-- ARP_HRD_ETH. -/
def arpHrdEth : Half := 1
/-- ARP_PRO_IPV4. -/
def arpProIpv4 : Half := 0x0800
/-- ARP_OP_REQ. -/
def arpOpReq : Half := 1
/-- ARP_OP_REP. -/
def arpOpRep : Half := 2
/-- ETH_HDR and IP_OFF. -/
def ethHdrLen : Nat := 14
/-- UDP_OFF, where the IPv4 header ends. -/
def udpOff : Nat := 34
/-- PAY_OFF and ARP_END: where the payload starts and an ARP packet ends. -/
def payOff : Nat := 42

/-! ## Headers -/

/-- The Ethernet II header, 14 bytes at frame offset 0 (R78). -/
def ethHeader (dst src : Mac) (etype : Half) : List Byte := be48 dst ++ be48 src ++ be16 etype

/-- The IPv4 header NETBLK writes, 20 bytes at frame offset 14 (R79). -/
def ipv4Header (totalLen ident checksum : Half) (src dst : Word) : List Byte :=
  [vihl45, 0x00] ++ be16 totalLen ++ be16 ident ++ be16 0x0000 ++ [ttl64, ipProtoUdp] ++
  be16 checksum ++ be32 src ++ be32 dst

/-- The UDP header, 8 bytes at frame offset 34, its checksum 0, "not computed" (R80). -/
def udpHeader (sport dport length : Half) : List Byte := be16 sport ++ be16 dport ++ be16 length ++ be16 0x0000

/-- The ARP packet of a reply, 28 bytes at frame offset 14 (R81, 42_arp.md R142). -/
def arpReplyPacket (sha : Mac) (spa : Word) (tha : Mac) (tpa : Word) : List Byte :=
  be16 arpHrdEth ++ be16 arpProIpv4 ++ [6, 4] ++ be16 arpOpRep ++ be48 sha ++ be32 spa ++ be48 tha ++ be32 tpa

/-! ## Building a frame -/

/-- A frame of `n` bytes is built in TXBUF (R83): the bytes of `hdr` from index 0, zeros from `n` to
P_MIN_FRAME - 1, and TX_LEN the padded length. Bytes between the header and `n` are the staged payload and are not
written (41_codec.md R120). -/
def buildFrame (hdr : List Byte) (n : Nat) (s : State) : State :=
  let padded := (s.storeBytes .tx 0 hdr).storeBytes .tx n (List.replicate (s.params.minFrame - n) 0)
  { padded with txLen := BitVec.ofNat 16 (max n s.params.minFrame) }

end Sys2Proof.Machine
end

