-- ==== Sys2Proof/Machine/Arp.lean ====
section
/-! DEFINITION. The ARP responder (42_arp.md): ARP_HANDLE. -/

namespace Sys2Proof.Machine

/-- The latched decode is an ARP request for the local address (42_arp.md R141). HLN, PLN and THA are not
checked (R142). -/
def arpRequestMatches (l : Latch) (localIp : Word) : Bool :=
  l.rxClass == .arp &&
  l.arpHrdPro.extractLsb' 16 16 == arpHrdEth &&
  l.arpHrdPro.extractLsb' 0 16 == arpProIpv4 &&
  l.arpLenOp.extractLsb' 0 16 == arpOpReq &&
  l.arpTpa == localIp

/-- The 42 bytes of the reply (42_arp.md R141, R142): to the requester's SHA, from the local identity. -/
def arpReplyBytes (l : Latch) (c : ConfigRegs) : List Byte :=
  ethHeader l.arpSha.value c.localMac.value etypeArp ++
  arpReplyPacket c.localMac.value c.localIp l.arpSha.value l.arpSpa

/-- ARP_HANDLE (42_arp.md R141): ARP_RESULT says whether a reply was built; on a match the reply is built in
TXBUF. LEN is ignored. -/
def execArpHandle (_len : Nat) (s : State) : Host.Outcome State Fault Refusal :=
  if arpRequestMatches s.latch s.cfg.localIp then
    .next (complete .noError { buildFrame (arpReplyBytes s.latch s.cfg) payOff s with arpReplied := true })
  else .next (complete .noError { s with arpReplied := false })

end Sys2Proof.Machine
end

