-- ==== Sys2Proof/Machine/Checksum.lean ====
section
/-! DEFINITION. The checksum engine (40_checksum.md): the 16-bit Internet checksum of a byte slice, and CSUM. -/

namespace Sys2Proof.Machine

/-- The 16-bit words of a byte slice (40_checksum.md R110): pairs counted from the slice's start, the byte at the
lower index high, and an odd last byte paired with a zero low byte. -/
def wordsOf : List Byte → List Half
  | [] => []
  | [b] => [b ++ 0#8]
  | hi :: lo :: bs => (hi ++ lo) :: wordsOf bs

/-- The 32-bit accumulator after all words (R110). -/
def sumWords (ws : List Half) : Word := ws.foldl (fun sum w => sum + w.setWidth 32) 0

/-- One fold: `zext_32(sum[15:0]) + zext_32(sum[31:16])` (R110). -/
def foldOnce (sum : Word) : Word :=
  (sum.extractLsb' 0 16).setWidth 32 + (sum.extractLsb' 16 16).setWidth 32

/-- `while sum[31:16] != 0` fold, at most `k` times (R110). -/
def foldCarries : Nat → Word → Word
  | 0, sum => sum
  | k + 1, sum => if sum.extractLsb' 16 16 = 0 then sum else foldCarries k (foldOnce sum)

/-- The Internet checksum of a byte slice (R110). The fold loop runs at most twice (R113; log 14). -/
def checksumOf (bs : List Byte) : Half :=
  ~~~ (foldCarries 2 (sumWords (wordsOf bs))).extractLsb' 0 16

/-- `Checksum(B, off, n)` (R110). -/
def checksumAt (s : State) (b : BufSel) (off n : Nat) : Half := checksumOf (sliceAt (s.byteAt b) off n)

/-- CSUM (R111): RANGE when the slice passes the buffer's end, otherwise CSUM_RESULT is the checksum of the `len`
bytes of buffer `b` from CSUM_OFF. -/
def execCsum (b : BufSel) (len : Nat) (s : State) : Host.Outcome State Fault Refusal :=
  let off := s.cfg.csumOff.toNat
  if off + len > s.params.bufBytes then .next (raiseError .range s)
  else .next (complete .noError { s with csumResult := checksumAt s b off len })

end Sys2Proof.Machine
end

