-- ==== Sys2Proof/Machine/Codec.lean ====
section
/-! DEFINITION. The frame codec (41_codec.md): ENCODE_UDP and DECODE. -/

namespace Sys2Proof.Machine

/-! ## ENCODE_UDP -/

/-- The IPv4 header of a datagram with `n` payload bytes, with the given checksum field (41_codec.md R121). -/
def datagramIpHeader (c : ConfigRegs) (n : Nat) (checksum : Half) : List Byte :=
  ipv4Header (BitVec.ofNat 16 (28 + n)) c.ipId checksum c.localIp c.dstIp

/-- The IPv4 header checksum, computed while its field is 0 (R121, 40_checksum.md R117). -/
def datagramChecksum (c : ConfigRegs) (n : Nat) : Half := checksumOf (datagramIpHeader c n 0)

/-- The 42 header bytes of a datagram with `n` payload bytes (R121). -/
def datagramHeaders (c : ConfigRegs) (n : Nat) : List Byte :=
  ethHeader c.dstMac.value c.localMac.value etypeIpv4 ++
  datagramIpHeader c n (datagramChecksum c n) ++
  udpHeader c.localPort c.dstPort (BitVec.ofNat 16 (8 + n))

/-- ENCODE_UDP (41_codec.md R121): MTU_EXCEEDED is checked first, then RANGE; otherwise the frame is built around
the payload staged at TX[42], TX_LEN and CSUM_RESULT are written. -/
def execEncodeUdp (n : Nat) (s : State) : Host.Outcome State Fault Refusal :=
  if n > s.cfg.mtu.toNat then .next (raiseError .mtuExceeded s)
  else if payOff + n > s.params.bufBytes then .next (raiseError .range s)
  else
    .next (complete .noError
      { buildFrame (datagramHeaders s.cfg n) (payOff + n) s with csumResult := datagramChecksum s.cfg n })

/-! ## DECODE -/

/-- The ARP branch of DECODE (41_codec.md R125), from a latch that holds the Ethernet fields. -/
def decodeArp (rd : Nat → Byte) (len : Nat) (eth : Latch) : Latch :=
  if len < payOff then eth
  else
    { eth with
      arpHrdPro := be16At rd 14 ++ be16At rd 16
      arpLenOp := rd 18 ++ rd 19 ++ be16At rd 20
      arpSha := .ofMac (be48At rd 22)
      arpSpa := be32At rd 28
      arpTha := .ofMac (be48At rd 32)
      arpTpa := be32At rd 38
      rxClass := .arp }

/-- The UDP part of DECODE's IPv4 branch (41_codec.md R125), from a latch that holds the IPv4 fields. -/
def decodeUdp (rd : Nat → Byte) (len : Nat) (rxCap : Half) (ip : Latch) : Latch :=
  let udpLen := be16At rd 38
  let udp := { ip with udpSport := be16At rd 34, udpDport := be16At rd 36, udpLen := udpLen }
  if udpLen.toNat < 8 ∨ udpOff + udpLen.toNat > len then udp
  else
    { udp with
      payLen := BitVec.ofNat 16 (min (udpLen.toNat - 8) rxCap.toNat)
      rxClass := .udp }

/-- The IPv4 branch of DECODE (41_codec.md R125), from a latch that holds the Ethernet fields. -/
def decodeIpv4 (rd : Nat → Byte) (len : Nat) (rxCap : Half) (eth : Latch) : Latch :=
  if len < udpOff then eth
  else
    let ip :=
      { eth with
        ipProto := rd 14 ++ rd 23
        ipTotlen := be16At rd 16
        ipSrc := be32At rd 26
        ipDst := be32At rd 30 }
    if rd 14 ≠ vihl45 then ip
    else if rd 23 ≠ ipProtoUdp then ip
    else if len < payOff then ip
    else decodeUdp rd len rxCap ip

/-- The latched decode of the frame of `len` bytes that `rd` reads (41_codec.md R125, R126): everything is cleared,
then filled in as far as the frame reaches. -/
def decodeFrame (rd : Nat → Byte) (len : Nat) (rxCap : Half) : Latch :=
  if len < ethHdrLen then .cleared
  else
    let etype := be16At rd 12
    let eth :=
      { Latch.cleared with
        ethDst := .ofMac (be48At rd 0)
        ethSrc := .ofMac (be48At rd 6)
        ethertype := etype }
    if etype = etypeArp then decodeArp rd len eth
    else if etype = etypeIpv4 then decodeIpv4 rd len rxCap eth
    else eth

/-- DECODE (41_codec.md R125): RANGE for a length above the buffer, and then the latch is unchanged; otherwise the
latch describes the frame in RXBUF. -/
def execDecode (len : Nat) (s : State) : Host.Outcome State Fault Refusal :=
  if len > s.params.bufBytes then .next (raiseError .range s)
  else .next (complete .noError { s with latch := decodeFrame (s.byteAt .rx) len s.cfg.rxCap })

end Sys2Proof.Machine
end

