-- ==== Sys2Proof/Machine/Control.lean ====
section
/-! DEFINITION. Command control (44_control.md): NOP and illegal command words. -/

namespace Sys2Proof.Machine

/-- NOP (44_control.md R165): it only completes. LEN is ignored. -/
def execNop (_len : Nat) (s : State) : Host.Outcome State Fault Refusal :=
  .next (complete .noError s)

/-- An illegal command word (44_control.md R166): it completes with ILLEGAL_CMD, whatever makes it illegal. -/
def execIllegal (_why : DecodeError) (s : State) : Host.Outcome State Fault Refusal :=
  .next (raiseError .illegalCmd s)

end Sys2Proof.Machine
end

