-- ==== Sys2Proof/Machine/Filter.lean ====
section
/-! DEFINITION. The receive address filter (43_rx_filter.md): MATCH_UDP. -/

namespace Sys2Proof.Machine

/-- The comparison of 43_rx_filter.md R151: unicast first, then the multicast group if one is enabled. -/
def matchDestination (l : Latch) (c : ConfigRegs) : MatchKind :=
  if l.rxClass ≠ .udp then .noMatch
  else if l.ipDst = c.localIp ∧ l.udpDport = c.localPort then .unicast
  else if c.mcastEn = true ∧ l.ipDst = c.mcastIp ∧ l.udpDport = c.mcastPort then .multicast
  else .noMatch

/-- MATCH_UDP (43_rx_filter.md R151): MATCH_RESULT is the comparison's outcome. LEN is ignored. -/
def execMatchUdp (_len : Nat) (s : State) : Host.Outcome State Fault Refusal :=
  .next (complete .noError { s with matchKind := matchDestination s.latch s.cfg })

end Sys2Proof.Machine
end

