-- ==== Sys2Proof/Machine/Dispatch.lean ====
section
/-! DEFINITION. exec: one arm per command (30_encoding.md R72), each one call of its meaning. -/

namespace Sys2Proof.Machine

-- The operation of a command and its completion, as one transition (44_control.md R161, R162).
def exec (i : Instr) (s : State) : Host.Outcome State Fault Refusal :=
  match i with
  | .nop len => Sys2Proof.Machine.execNop len s
  | .csum buf len => Sys2Proof.Machine.execCsum buf len s
  | .encodeUdp len => Sys2Proof.Machine.execEncodeUdp len s
  | .decode len => Sys2Proof.Machine.execDecode len s
  | .arpHandle len => Sys2Proof.Machine.execArpHandle len s
  | .matchUdp len => Sys2Proof.Machine.execMatchUdp len s

end Sys2Proof.Machine
end

