-- ==== Sys2Proof/Machine/HostPort.lean ====
section
/-! DEFINITION. The host port (20_memory.md): what an address names, host reads and writes, the busy rules, and one
turn of the host. -/

namespace Sys2Proof.Machine

/-- What a host access reaches. -/
inductive Target where
  /-- An error access (20_memory.md R55). -/
  | error
  /-- An aligned 4-byte register address the map does not list: RAZ/WI (10_state.md R25). -/
  | reserved
  /-- A register. -/
  | reg (r : Reg)
  /-- The bytes of a buffer from index `i` up. -/
  | bytes (b : BufSel) (i : Nat)
deriving DecidableEq, Repr

/-- What an access of width `n` at window offset `i` of buffer `b` reaches: an offset at or above P_BUF_BYTES is
unmapped (20_memory.md R50, R55). -/
def bufTarget (p : Config.Params) (b : BufSel) (i : Nat) : Target :=
  if i < p.bufBytes then .bytes b i else .error

/-- What an access of width `n` at address `a` reaches (20_memory.md R50, R52, R53, R55). -/
def resolve (p : Config.Params) (a : HostAddr) (n : Width) : Target :=
  if a.toNat % n.bytes ≠ 0 then .error
  else
    match a.toNat / 0x1000 with
    | 0 =>
      if n = .w32 then
        match regAt a.toNat with
        | some r => .reg r
        | none => .reserved
      else .error
    | 1 => bufTarget p .rx (a.toNat % 0x1000)
    | 2 => bufTarget p .tx (a.toNat % 0x1000)
    | _ => .error

/-- While BUSY, whether a read of the target is unspecified: the target lies in W(PEND[3:0]) (20_memory.md R59;
log 6). -/
def unspecifiedRead (s : State) (t : Target) : Bool :=
  match s.pend, t with
  | some w, .reg r => inWriteSet (opField w) r
  | some w, .bytes b _ => bufInWriteSet (opField w) b
  | some _, .reserved => false
  | some _, .error => false
  | none, _ => false

/-- What a target holds, as an access of width `n` reads it (20_memory.md R52, R53); an error access and a
reserved register read 0 (R55, 10_state.md R25). -/
def targetValue (s : State) (n : Width) : Target → HostData
  | .error => .ofWord n 0
  | .reserved => .ofWord n 0
  | .reg r => .ofWord n (readReg r s)
  | .bytes b i => lanesAt (s.byteAt b) i n

/-- The host receives a value. -/
def reply (v : HostData) (s : State) : State := { s with hostOut := v :: s.hostOut }

/-- `MemRead(a, n)` (20_memory.md R52 to R55, R59, R60): the value is returned and nothing else changes, but an
error access sets BUSERR, and an unspecified read returns a free value (log 5). -/
def hostRead (a : HostAddr) (n : Width) (s : State) : State :=
  let t := resolve s.params a n
  if t = .error then reply (.ofWord n 0) { s with busErr := true }
  else if unspecifiedRead s t then
    reply (.ofWord n (Config.busyRead s.draws)) { s with draws := s.draws + 1 }
  else reply (targetValue s n t) s

/-- The word of a 4-byte datum; a register takes no other (20_memory.md R52). -/
def HostData.asWord : HostData → Word
  | .byte v => v.setWidth 32
  | .half v => v.setWidth 32
  | .word v => v

/-- `MemWrite(a, n, v)` (20_memory.md R52, R53, R55, R58): an error access only sets BUSERR, a buffer write while
BUSY only sets HAZ, a reserved register ignores the write. -/
def hostWrite (a : HostAddr) (v : HostData) (s : State) : State :=
  match resolve s.params a v.width with
  | .error => { s with busErr := true }
  | .reserved => s
  | .reg r => writeReg r v.asWord s
  | .bytes b i => if s.busy then { s with haz := true } else s.storeBytes b i v.lanes

/-- The address of STATUS (10_state.md R28). -/
def statusAddr : HostAddr := 0x008

/-- The effect of one input on the block. `wait` reads STATUS, and stands again at the head of the inputs while
the value read has BUSY = 1 (30_encoding.md R76). -/
def performInput (e : Input) (s : State) : State :=
  match e with
  | .read a n => hostRead a n s
  | .write a v => hostWrite a v s
  | .wait =>
    if s.busy then hostRead statusAddr .w32 { s with hostIn := .wait :: s.hostIn }
    else hostRead statusAddr .w32 s
  | .hwReset => hardReset s

/-- The next input is performed, if there is one; an idle block with no input holds all its state
(60_exceptions.md R194). -/
def takeInput (s : State) : State :=
  match s.hostIn with
  | [] => s
  | e :: es => performInput e { s with hostIn := es }

/-- One turn of the host: one host turn less before the engine's step (log 4), and the next input performed. -/
def hostTurn (s : State) : State := takeInput { s with engineWait := s.engineWait - 1 }

end Sys2Proof.Machine
end

