-- ==== Sys2Proof/Machine/Step.lean ====
section
/-! DEFINITION. One step of NETBLK: the engine's step when it is due, a turn of the host otherwise. -/

namespace Sys2Proof.Machine

/-- The engine's step on the word it holds (44_control.md R161): decode, operate and complete, in one transition. -/
def engineStep (w : Word) (s : State) : Host.Outcome State Fault Refusal :=
  match decodeWord w with
  | .ok i => exec i s
  | .error why => execIllegal why s

/-- One step. While a command is pending and its delay has passed, the engine steps; otherwise the host has its
turn (44_control.md R161, 20_memory.md R62; log 4). -/
def step (s : State) : Host.Outcome State Fault Refusal :=
  match dueCommand s with
  | some w => engineStep w s
  | none => .next (hostTurn s)

/-- The state with the command word `w` accepted and its engine step due, so that the next step runs it (log 8). -/
def State.withFetchWord (s : State) (nbits w : Nat) : State :=
  loadCommand (BitVec.ofNat 32 (w % 2 ^ nbits)) 0 s

end Sys2Proof.Machine
end

