-- ==== Sys2Proof/Machine/Assembler.lean ====
section
/-! DEFINITION. The spec's own notation for commands and host programs (30_encoding.md R75 to R77): what each
spelling assembles to, as a command word or as a list of host inputs. -/

namespace Sys2Proof.Machine

/-- The command mnemonics of 30_encoding.md R75. -/
inductive AsmCommand where
  | nop
  | csumRx (len : Nat)
  | csumTx (len : Nat)
  | encodeUdp (len : Nat)
  | decode (len : Nat)
  | arpHandle
  | matchUdp
deriving DecidableEq, Repr

/-- The command a mnemonic spells; NOP, ARP_HANDLE and MATCH_UDP get LEN = 0 (R75). -/
def AsmCommand.instr : AsmCommand → Instr
  | .nop => .nop 0
  | .csumRx len => .csum .rx len
  | .csumTx len => .csum .tx len
  | .encodeUdp len => .encodeUdp len
  | .decode len => .decode len
  | .arpHandle => .arpHandle 0
  | .matchUdp => .matchUdp 0

/-- The command word, or nothing where the assembler refuses: a length above 65535 (R75). -/
def assemble (c : AsmCommand) : Option Word :=
  if WellFormed c.instr then some (encode c.instr) else none

/-- The pseudo-instructions of 30_encoding.md R77. -/
inductive Pseudo where
  | cmd (c : AsmCommand)
  | run (c : AsmCommand)
  | ipcsumTx
  | ipcsumRx
  | ack
  | srst
deriving DecidableEq, Repr

/-- `wr32 a, v` (R76). -/
def wr32 (a : HostAddr) (v : Word) : Input := .write a (.word v)

/-- `CMD <command>` (R77). -/
def expandCmd (c : AsmCommand) : Option (List Input) := (assemble c).map fun w => [wr32 0x00C w]

/-- `RUN <command>` (R77). -/
def expandRun (c : AsmCommand) : Option (List Input) := (expandCmd c).map fun ops => ops ++ [.wait]

/-- The host operations a pseudo-instruction stands for (R77). -/
def Pseudo.expand : Pseudo → Option (List Input)
  | .cmd c => expandCmd c
  | .run c => expandRun c
  | .ipcsumTx => (expandRun (.csumTx 20)).map fun ops => wr32 0x018 14 :: ops
  | .ipcsumRx => (expandRun (.csumRx 20)).map fun ops => wr32 0x018 14 :: ops
  | .ack => some [wr32 0x008 0x0000000E]
  | .srst => some [wr32 0x004 0x00000002]

end Sys2Proof.Machine
end

