-- ==== Sys2Proof/Safety.lean ====
section
/-! DEFINITION. The terms claims are written in: what a step leaves unchanged, how a command ends, runs of several
steps, and the invariant every step keeps. -/

namespace Sys2Proof.Machine

/-- Every register but those in `except` reads the same in `t` as in `s`. -/
def SameRegs (except : List Reg) (s t : State) : Prop := ∀ r, r ∉ except → readReg r t = readReg r s

/-- Every byte of buffer `b` reads the same in `t` as in `s`. -/
def SameBuf (b : BufSel) (s t : State) : Prop := ∀ i, t.byteAt b i = s.byteAt b i

/-- The parameters and the model's own fields are the same in `t` as in `s`. -/
structure SameOwn (s t : State) : Prop where
  params : t.params = s.params
  epoch : t.epoch = s.epoch
  engineWait : t.engineWait = s.engineWait
  accepted : t.accepted = s.accepted
  draws : t.draws = s.draws
  hostIn : t.hostIn = s.hostIn
  hostOut : t.hostOut = s.hostOut

/-- `t` is `s` after a command's completion with `code` (44_control.md R162), as far as STATUS and PEND go: BUSY
is 0, DONE is 1, ERR is the code; LAST_OP, HAZ and BUSERR are kept. -/
structure Completed (code : ErrCode) (s t : State) : Prop where
  err : t.err = code
  done : t.done = true
  pend : t.pend = none
  lastOp : t.lastOp = s.lastOp
  haz : t.haz = s.haz
  busErr : t.busErr = s.busErr

/-- `t` is `s` after a command that completed with `code` and wrote no register but STATUS and those in `regs`.
It says nothing of the buffers. -/
structure Effect (code : ErrCode) (regs : List Reg) (s t : State) : Prop where
  completed : Completed code s t
  regs : SameRegs (.status :: regs) s t
  own : SameOwn s t

/-- `k` steps of the machine from `s` end in `t`. -/
def Runs (k : Nat) (s t : State) : Prop := Host.Core.run Sys2Proof.core k s = .next t

/-- The input resets the block: the reset pin, or a 4-byte write to CTRL with SRST set (70_reset_and_hazards.md
R200, R202). -/
def Input.resets : Input → Bool
  | .hwReset => true
  | .write a (.word v) => a == 0x004 && v.getLsbD 1
  | .write _ (.half _) => false
  | .write _ (.byte _) => false
  | .read _ _ => false
  | .wait => false

/-- No field of the latch that only an ARP frame fills holds anything (41_codec.md R126). -/
abbrev Latch.NoArp (l : Latch) : Prop :=
  l.arpHrdPro = 0 ∧ l.arpLenOp = 0 ∧ l.arpSha = .zero ∧ l.arpSpa = 0 ∧ l.arpTha = .zero ∧ l.arpTpa = 0

/-- No field of the latch that only an IPv4 frame fills holds anything (41_codec.md R126). -/
abbrev Latch.NoIpv4 (l : Latch) : Prop :=
  l.ipSrc = 0 ∧ l.ipDst = 0 ∧ l.ipProto = 0 ∧ l.ipTotlen = 0 ∧
  l.udpSport = 0 ∧ l.udpDport = 0 ∧ l.udpLen = 0 ∧ l.payLen = 0

/-- What the class of the latched decode says of its fields (41_codec.md R125, R126): an ARP latch has EtherType
0x0806 and nothing of IPv4; a UDP latch has EtherType 0x0800, VIHL 0x45, protocol 17, a UDP length that holds the
header and ends inside the buffer, a payload no longer than the datagram's, and nothing of ARP; an UNHANDLED latch
delivers no payload and has nothing of ARP. -/
def Latch.Consistent (bufBytes : Nat) (l : Latch) : Prop :=
  match l.rxClass with
  | .arp => l.ethertype = 0x0806 ∧ l.NoIpv4
  | .udp => l.ethertype = 0x0800 ∧ l.ipProto = 0x4511 ∧ 8 ≤ l.udpLen.toNat ∧ 34 + l.udpLen.toNat ≤ bufBytes ∧
      l.payLen.toNat + 8 ≤ l.udpLen.toNat ∧ l.NoArp
  | .unhandled => l.payLen = 0 ∧ l.NoArp

/-- The invariant of NETBLK, kept by every step. -/
structure State.Inv (s : State) : Prop where
  /-- The parameters lie in the range of 00_scope.md R8 and 20_memory.md R51. -/
  legal : s.params.Legal
  /-- RXBUF is in its canonical form and lists no index at or above P_BUF_BYTES. -/
  rx : Memory.wf s.rx = true ∧ Memory.below s.params.bufBytes s.rx = true
  /-- TXBUF likewise. -/
  tx : Memory.wf s.tx = true ∧ Memory.below s.params.bufBytes s.tx = true
  /-- While a command is pending DONE and ERR read 0 and LAST_OP is its opcode (10_state.md R24, 20_memory.md R59). -/
  pending : ∀ w, s.pend = some w → s.done = false ∧ s.err = .noError ∧ s.lastOp = opField w
  /-- An idle block waits for no engine step (log 4). -/
  idle : s.pend = none → s.engineWait = 0
  /-- TX_LEN is 0, or the length of a frame that holds all headers and its padding and fits the buffer
  (10_state.md R41, 30_encoding.md R83). -/
  txLen : s.txLen = 0 ∨
    (42 ≤ s.txLen.toNat ∧ s.params.minFrame ≤ s.txLen.toNat ∧ s.txLen.toNat ≤ s.params.bufBytes)
  /-- The latched decode is consistent with its class. -/
  latch : s.latch.Consistent s.params.bufBytes

end Sys2Proof.Machine
end

