-- ==== Sys2Proof/Certificates/Slice0/Obligations.lean ====
section
/-! DEFINITION. The statements for the provers, from the numbered rules of spec/. Each docstring names the rule.
Reads of a buffer go through `State.byteAt`, reads of a register through `readReg`. -/

open Sys2Proof Sys2Proof.Machine

/-! ## Helpers of the statements -/

/-- A word is spelled by exactly the words that match: `w & mask = bits` exactly when `w` decodes to `mk w`. -/
def Sys2Proof.SpelledBy (bits mask : Word) (mk : Word → Instr) : Prop :=
  ∀ w, w &&& mask = bits ↔ decodeWord w = .ok (mk w)

/-- A 48-bit name of 10_state.md R25, `{HI[15:0], LO[31:0]}`, from its two registers. -/
def Sys2Proof.macOf (hi lo : Reg) (s : State) : Mac := (readReg hi s).extractLsb' 0 16 ++ readReg lo s

/-- The two registers of a 48-bit name read `v`, and 0 in the bits above it. -/
def Sys2Proof.ReadsMac (hi lo : Reg) (s : State) (v : Mac) : Prop := readReg hi s ++ readReg lo s = v.setWidth 64

/-- Every register of the list reads 0. -/
def Sys2Proof.ReadsZero (rs : List Reg) (s : State) : Prop := ∀ r ∈ rs, readReg r s = 0

/-- The number of an error code (60_exceptions.md R181). -/
def Sys2Proof.errorNumber (c : ErrCode) : Nat :=
  if c = .illegalCmd then 1 else if c = .mtuExceeded then 2 else if c = .range then 3 else 0

/-- STATUS[7:4], the code of the last completed command (10_state.md R28). -/
def Sys2Proof.statusCode (s : State) : Nat := ((readReg .status s).extractLsb' 4 4).toNat

/-- The `k`-th 16-bit word of the slice of `n` bytes from `off`, as 40_checksum.md R110 forms it. -/
def Sys2Proof.sliceWord (rd : Nat → Byte) (off n k : Nat) : Nat :=
  (rd (off + 2 * k)).toNat * 256 + if 2 * k + 1 < n then (rd (off + 2 * k + 1)).toNat else 0

/-- The unbounded sum S of the words of a slice (40_checksum.md R114). -/
def Sys2Proof.sliceSum (rd : Nat → Byte) (off n : Nat) : Nat :=
  ((List.range ((n + 1) / 2)).map (sliceWord rd off n)).sum

/-- The folded sum F of an unbounded sum S (40_checksum.md R114): 0 for 0, otherwise the value in [1, 0xFFFF]
congruent to S modulo 0xFFFF. -/
def Sys2Proof.foldedSum (S : Nat) : Nat := if S = 0 then 0 else (S - 1) % 65535 + 1

/-! ## Encoding -/

/-- Decoding the encoding of a well-formed command gives the command back (30_encoding.md R70 to R73). -/
def Obligations.DecodeOfEncode : Prop := ∀ i : Instr, WellFormed i → decodeWord (encode i) = .ok i

/-- Every legal word is the encoding of the command it spells, so no bit of it is dropped (30_encoding.md R70). -/
def Obligations.EncodeOfDecode : Prop :=
  ∀ (w : Word) (i : Instr), decodeWord w = .ok i → WellFormed i ∧ encode i = w

/-- 30_encoding.md R73, whole: the legal words, the match and mask pairs, the illegal words' completion, and that
LEN never makes a word illegal. -/
def Obligations.LegalCommandWords : Prop :=
  ∀ w : Word,
    ((∃ i, decodeWord w = .ok i) ↔
      w.extractLsb' 0 4 ≤ 0x5#4 ∧ w.extractLsb' 5 11 = 0 ∧ (w.getLsbD 4 = false ∨ w.extractLsb' 0 4 = 0x1)) ∧
    (∀ i, decodeWord w = .ok i → ∃ r ∈ opcodeRows, r.mnemonic = i.mnemonic ∧ w &&& r.mask = r.bits) ∧
    (∀ r ∈ opcodeRows, w &&& r.mask = r.bits → ∃ i, decodeWord w = .ok i ∧ i.mnemonic = r.mnemonic) ∧
    (∀ s : State, s.pend = some w → s.engineWait = 0 → (¬ ∃ i, decodeWord w = .ok i) →
      ∃ t, step s = .next t ∧ Effect .illegalCmd [] s t ∧ SameBuf .rx s t ∧ SameBuf .tx s t) ∧
    (∀ v : Word, v.extractLsb' 0 16 = w.extractLsb' 0 16 →
      ((∃ i, decodeWord v = .ok i) ↔ ∃ i, decodeWord w = .ok i))

/-- No word matches two rows of the opcode table (30_encoding.md R73). -/
def Obligations.OpcodeRowsDisjoint : Prop :=
  ∀ (w : Word), ∀ r ∈ opcodeRows, ∀ q ∈ opcodeRows, r.fits w = true → q.fits w = true → r = q

/-- Words written out from the rows of 30_encoding.md R72 and R75 decode to the commands they stand for. -/
def Obligations.SpecWordsDecode : Prop :=
  decodeWord 0x00000000 = .ok (.nop 0) ∧
  decodeWord 0x00140001 = .ok (.csum .rx 20) ∧
  decodeWord 0x00140011 = .ok (.csum .tx 20) ∧
  decodeWord 0x00040002 = .ok (.encodeUdp 4) ∧
  decodeWord 0x003C0003 = .ok (.decode 60) ∧
  decodeWord 0x00000004 = .ok (.arpHandle 0) ∧
  decodeWord 0x00000005 = .ok (.matchUdp 0)

/-- 30_encoding.md R75: the word each mnemonic spells, and that a length above 65535 is refused. -/
def Obligations.AssemblerWords : Prop :=
  assemble .nop = some 0x00000000 ∧ assemble .arpHandle = some 0x00000004 ∧ assemble .matchUdp = some 0x00000005 ∧
  ∀ len : Nat,
    (len ≤ 65535 →
      assemble (.csumRx len) = some (BitVec.ofNat 32 len <<< 16 ||| 0x01) ∧
      assemble (.csumTx len) = some (BitVec.ofNat 32 len <<< 16 ||| 0x11) ∧
      assemble (.encodeUdp len) = some (BitVec.ofNat 32 len <<< 16 ||| 0x02) ∧
      assemble (.decode len) = some (BitVec.ofNat 32 len <<< 16 ||| 0x03)) ∧
    (65535 < len →
      assemble (.csumRx len) = none ∧ assemble (.csumTx len) = none ∧
      assemble (.encodeUdp len) = none ∧ assemble (.decode len) = none)

/-! ## Steps -/

/-- When a command is pending, its delay has passed and its word spells a command, the step is exec of that
command at that state (44_control.md R161). -/
def Obligations.StepRunsDecodedCommand : Prop :=
  ∀ (s : State) (w : Word) (i : Instr),
    s.pend = some w → s.engineWait = 0 → decodeWord w = .ok i → step s = exec i s

/-- 44_control.md R166, whole: a word with OP in 0x6..0xF, or RSV not 0, or BUF = 1 with OP not 0x1, is accepted and
completes with ILLEGAL_CMD and no other effect, and STATUS then reads DONE, ERR = 1 and the word's low four bits as
LAST_OP. -/
def Obligations.IllegalWordCompletes : Prop :=
  ∀ (s : State) (w : Word),
    s.pend = some w → s.engineWait = 0 → s.lastOp = w.extractLsb' 0 4 →
    0x6#4 ≤ w.extractLsb' 0 4 ∨ w.extractLsb' 5 11 ≠ 0 ∨ (w.getLsbD 4 = true ∧ w.extractLsb' 0 4 ≠ 0x1) →
    ∃ t, step s = .next t ∧ Effect .illegalCmd [] s t ∧ SameBuf .rx s t ∧ SameBuf .tx s t ∧
      t.lastOp = w.extractLsb' 0 4 ∧
      (s.haz = false → s.busErr = false →
        readReg .status t = (w.extractLsb' 0 4).setWidth 32 <<< 8 ||| 0x12)

/-- NETBLK raises no trap (60_exceptions.md R180): from every state the step answers a next state. -/
def Obligations.StepNeverStops : Prop := ∀ s : State, ∃ t, step s = .next t

/-- An idle block with no input holds all its state (60_exceptions.md R194). -/
def Obligations.IdleHoldsState : Prop :=
  ∀ s : State, s.pend = none → s.hostIn = [] → s.engineWait = 0 → step s = .next s

/-- A step that is not the engine's is a turn of the host: it performs the next input, if there is one, in the order
they stand (20_memory.md R62); that a turn also shortens the engine's delay is log 4, and that the inputs stand in
State is log 7. A read is MemRead, a write is MemWrite, and `wait` is a read of STATUS that stands again at the head
of the inputs while BUSY (30_encoding.md R76). -/
def Obligations.HostTurnPerformsNextInput : Prop :=
  (∀ (s : State) (e : Input) (es : List Input), (s.pend = none ∨ s.engineWait ≠ 0) → s.hostIn = e :: es →
    step s = .next (performInput e { s with hostIn := es, engineWait := s.engineWait - 1 })) ∧
  (∀ s : State, (s.pend = none ∨ s.engineWait ≠ 0) → s.hostIn = [] →
    step s = .next { s with engineWait := s.engineWait - 1 }) ∧
  (∀ (s : State) (a : HostAddr) (n : Width), performInput (.read a n) s = hostRead a n s) ∧
  (∀ (s : State) (a : HostAddr) (v : HostData), performInput (.write a v) s = hostWrite a v s) ∧
  (∀ s : State, s.pend = none →
    performInput .wait s = { s with hostOut := .word (readReg .status s) :: s.hostOut }) ∧
  (∀ s : State, s.pend ≠ none →
    performInput .wait s =
      { s with hostOut := .word (readReg .status s) :: s.hostOut, hostIn := .wait :: s.hostIn })

/-- No input of the host reaches what a pending command will read (44_control.md R170). While a command is pending,
`engineWait` host turns (log 4) pass before its step whatever they are, unless one resets the block, and at that step
every configuration register, result register and buffer byte is as it was; CTRL and STATUS may differ. -/
def Obligations.OperandsStableWhilePending : Prop :=
  ∀ (s : State) (w : Word), s.pend = some w →
    (∀ e ∈ s.hostIn.take s.engineWait, Input.resets e = false) →
    ∃ t, Runs s.engineWait s t ∧ t.pend = some w ∧ t.engineWait = 0 ∧ t.params = s.params ∧
      SameRegs [.ctrl, .status] s t ∧ SameBuf .rx s t ∧ SameBuf .tx s t ∧ t.lastOp = s.lastOp

/-- 44_control.md R164: an accepted command completes after a finite delay unless a reset comes first. -/
def Obligations.PendingCommandCompletes : Prop :=
  ∀ (s : State) (w : Word), s.pend = some w →
    (∀ e ∈ s.hostIn.take s.engineWait, Input.resets e = false) →
    ∃ t, Runs (s.engineWait + 1) s t ∧ t.pend = none ∧ t.done = true

/-! ## Acceptance and the host port -/

/-- 44_control.md R160, whole: a write to CMD while BUSY only sets HAZ; otherwise PEND holds the word, BUSY is 1,
DONE and ERR are 0, LAST_OP is the opcode, and nothing else the block holds changes. -/
def Obligations.CommandAcceptance : Prop :=
  ∀ (s : State) (w : Word),
    (s.pend ≠ none → hostWrite 0x00C (.word w) s = { s with haz := true }) ∧
    (s.pend = none →
      ∃ t, hostWrite 0x00C (.word w) s = t ∧ t.pend = some w ∧ t.done = false ∧ t.err = .noError ∧
        t.lastOp = w.extractLsb' 0 4 ∧ t.haz = s.haz ∧ t.busErr = s.busErr ∧ (readReg .status t).getLsbD 0 = true ∧
        SameRegs [.status] s t ∧ SameBuf .rx s t ∧ SameBuf .tx s t ∧ t.params = s.params)

/-- 20_memory.md R58, whole: while BUSY, a 4-byte write to CMD or a configuration register, and any legal buffer
write, changes nothing but HAZ. Busy or not, CTRL and STATUS are written, and read-only and reserved registers
ignore the write. -/
def Obligations.WritesWhileBusy : Prop :=
  ∀ s : State,
    (s.pend ≠ none →
      (∀ (r : Reg) (v : Word), r = .cmd ∨ (0x010 ≤ r.addr ∧ r.addr ≤ 0x04C) →
        hostWrite (BitVec.ofNat 14 r.addr) (.word v) s = { s with haz := true }) ∧
      (∀ (a : HostAddr) (v : HostData) (b : BufSel) (i : Nat), resolve s.params a v.width = .bytes b i →
        hostWrite a v s = { s with haz := true })) ∧
    (∀ v : Word, hostWrite 0x004 (.word v) s = writeCtrl v s ∧ hostWrite 0x008 (.word v) s = writeStatus v s) ∧
    (∀ (r : Reg) (v : Word), r = .id ∨ 0x080 ≤ r.addr → hostWrite (BitVec.ofNat 14 r.addr) (.word v) s = s) ∧
    (∀ (a : HostAddr) (v : Word), a.toNat < 0x1000 → a.toNat % 4 = 0 → regAt a.toNat = none →
      hostWrite a (.word v) s = s)

/-- The mask of the bits a configuration register holds (10_state.md R25, the column of bits used). -/
def Sys2Proof.configMask (r : Reg) : Word :=
  if r = .localMacLo ∨ r = .localIp ∨ r = .mcastIp ∨ r = .dstMacLo ∨ r = .dstIp then 0xFFFFFFFF
  else if r = .mcastCfg then 0x00000001
  else 0x0000FFFF

/-- A 4-byte host write to a configuration register of an idle block stores the bits its row lists, as a read then
returns, and changes nothing else (20_memory.md R52, R60, 10_state.md R25). -/
def Obligations.ConfigWriteReadsBack : Prop :=
  ∀ (s : State) (r : Reg) (v : Word), s.pend = none → 0x010 ≤ r.addr → r.addr ≤ 0x04C →
    ∃ t, hostWrite (BitVec.ofNat 14 r.addr) (.word v) s = t ∧ readReg r t = v &&& configMask r ∧
      SameRegs [r] s t ∧ SameBuf .rx s t ∧ SameBuf .tx s t ∧ t.pend = none ∧ SameOwn s t

/-- The register map, row by row (10_state.md R25, the columns address and name). -/
def Sys2Proof.registerMap : List (Nat × Reg) :=
  [(0x000, .id), (0x004, .ctrl), (0x008, .status), (0x00C, .cmd),
   (0x010, .mtu), (0x014, .rxCap), (0x018, .csumOff), (0x01C, .ipId),
   (0x020, .localMacHi), (0x024, .localMacLo), (0x028, .localIp), (0x02C, .localPort),
   (0x030, .mcastCfg), (0x034, .mcastIp), (0x038, .mcastPort),
   (0x040, .dstMacHi), (0x044, .dstMacLo), (0x048, .dstIp), (0x04C, .dstPort)] ++
  [(0x080, .csumResult), (0x084, .txLen), (0x088, .rxClass), (0x08C, .ethertype),
   (0x090, .ethDstHi), (0x094, .ethDstLo), (0x098, .ethSrcHi), (0x09C, .ethSrcLo),
   (0x0A0, .ipSrc), (0x0A4, .ipDst), (0x0A8, .ipProto), (0x0AC, .ipTotlen),
   (0x0B0, .udpSport), (0x0B4, .udpDport), (0x0B8, .udpLen), (0x0BC, .payLen), (0x0C0, .payOff)] ++
  [(0x0C4, .arpHrdPro), (0x0C8, .arpLenOp), (0x0CC, .arpShaHi), (0x0D0, .arpShaLo), (0x0D4, .arpSpa),
   (0x0D8, .arpThaHi), (0x0DC, .arpThaLo), (0x0E0, .arpTpa), (0x0E4, .arpResult), (0x0E8, .matchResult)]

/-- 10_state.md R25: every register stands at the address of its row and no register at another, and a reserved
register, an aligned address below 0x1000 that the map does not list, reads 0 and raises no BUSERR, busy or not. -/
def Obligations.ReservedRegistersReadZero : Prop :=
  (∀ r : Reg, (r.addr, r) ∈ registerMap) ∧
  (∀ (a : Nat) (r : Reg), regAt a = some r ↔ (a, r) ∈ registerMap) ∧
  ∀ (s : State) (a : HostAddr), a.toNat < 0x1000 → a.toNat % 4 = 0 → regAt a.toNat = none →
    hostRead a .w32 s = { s with hostOut := .word 0 :: s.hostOut }

/-- The bit positions a register's row leaves unlisted read 0 (10_state.md R25). -/
def Obligations.UnlistedBitsReadZero : Prop :=
  ∀ (s : State) (r : Reg) (k : Nat),
    (r = .ctrl → 1 ≤ k → (readReg r s).getLsbD k = false) ∧
    (r = .status → 12 ≤ k → (readReg r s).getLsbD k = false) ∧
    (r = .cmd → (readReg r s).getLsbD k = false) ∧
    ((r = .mcastCfg ∨ r = .arpResult) → 1 ≤ k → (readReg r s).getLsbD k = false) ∧
    ((r = .rxClass ∨ r = .matchResult) → 2 ≤ k → (readReg r s).getLsbD k = false) ∧
    (r ∈ [Reg.mtu, .rxCap, .csumOff, .ipId, .localMacHi, .localPort, .mcastPort, .dstMacHi, .dstPort, .csumResult,
          .txLen, .ethertype, .ethDstHi, .ethSrcHi, .ipProto, .ipTotlen, .udpSport, .udpDport, .udpLen, .payLen,
          .payOff, .arpShaHi, .arpThaHi] → 16 ≤ k → (readReg r s).getLsbD k = false)

/-- The base of a buffer's window (20_memory.md R50). -/
def Sys2Proof.windowBase : BufSel → Nat
  | .rx => 0x1000
  | .tx => 0x2000

/-- Bits [8k+7:8k] of a datum (20_memory.md R53). -/
def Sys2Proof.laneOf (v : HostData) (k : Nat) : Byte := v.asWord.extractLsb' (8 * k) 8

/-- 20_memory.md R53, whole, for an idle block (R58 and R59 say what BUSY changes): a write of n bytes to a buffer
window at a multiple of n stores bits [8k+7:8k] at B[i+k] and leaves every other byte of both buffers, and every
register, as it was; a read returns B[i+k] in bits [8k+7:8k] and changes nothing else. -/
def Obligations.BufferAccessIsLittleEndian : Prop :=
  ∀ (s : State) (b : BufSel) (i : Nat), s.params.Legal → s.pend = none → i < s.params.bufBytes →
    (∀ v : HostData, i % v.width.bytes = 0 →
      ∃ t, hostWrite (BitVec.ofNat 14 (windowBase b + i)) v s = t ∧
        (∀ k, k < v.width.bytes → t.byteAt b (i + k) = laneOf v k) ∧
        (∀ c j, (c ≠ b ∨ j < i ∨ i + v.width.bytes ≤ j) → t.byteAt c j = s.byteAt c j) ∧
        SameRegs [] s t ∧ t.pend = none ∧ SameOwn s t) ∧
    (∀ n : Width, i % n.bytes = 0 →
      ∃ v : HostData, v.width = n ∧
        hostRead (BitVec.ofNat 14 (windowBase b + i)) n s = { s with hostOut := v :: s.hostOut } ∧
        (∀ k, k < n.bytes → laneOf v k = s.byteAt b (i + k)))

/-- 20_memory.md R57: an EtherType 0x0800 in TX[12..13] reads byte-swapped through the little-endian window. -/
def Obligations.MixedWidthRead : Prop :=
  ∀ s : State, s.params.Legal → s.pend = none → be16At (s.byteAt .tx) 12 = 0x0800 →
    hostRead 0x200C .w16 s = { s with hostOut := .half 0x0008 :: s.hostOut } ∧
    hostRead 0x200C .w32 s =
      { s with hostOut := .word (s.byteAt .tx 15 ++ s.byteAt .tx 14 ++ 0x00#8 ++ 0x08#8) :: s.hostOut }

/-- The four kinds of error access of 20_memory.md R55. -/
def Sys2Proof.ErrorAccess (p : Config.Params) (a : HostAddr) (n : Width) : Prop :=
  a.toNat % n.bytes ≠ 0 ∨ (a.toNat < 0x1000 ∧ n ≠ .w32) ∨ 0x3000 ≤ a.toNat ∨
  (0x1000 ≤ a.toNat ∧ p.bufBytes ≤ a.toNat % 0x1000)

/-- 20_memory.md R55, whole: an error access has no effect but BUSERR, an error read returns 0, and an access that
is none of the four kinds never sets BUSERR. -/
def Obligations.ErrorAccessOnlySetsBusErr : Prop :=
  ∀ (s : State) (a : HostAddr) (n : Width) (v : HostData),
    (ErrorAccess s.params a n →
      hostRead a n s = { s with busErr := true, hostOut := HostData.ofWord n 0 :: s.hostOut }) ∧
    (ErrorAccess s.params a v.width → hostWrite a v s = { s with busErr := true }) ∧
    (¬ ErrorAccess s.params a n → (hostRead a n s).busErr = s.busErr) ∧
    (¬ ErrorAccess s.params a v.width → s.busErr = false → (hostWrite a v s).busErr = false)

/-- 20_memory.md R60: a read that is no error access changes nothing the block holds, busy or not: only the value
goes to the host, and (log 5) the count of unspecified reads may rise. While no command is pending, a 4-byte read at a
register's address returns exactly what the register reads (R52), and no count rises. -/
def Obligations.ReadsHaveNoSideEffect : Prop :=
  (∀ (s : State) (a : HostAddr) (n : Width), ¬ ErrorAccess s.params a n →
    ∃ (v : HostData) (d : Nat), v.width = n ∧ hostRead a n s = { s with hostOut := v :: s.hostOut, draws := d }) ∧
  (∀ (s : State) (r : Reg), s.pend = none →
    hostRead (BitVec.ofNat 14 r.addr) .w32 s = { s with hostOut := .word (readReg r s) :: s.hostOut })

/-- The write set W(op) of 20_memory.md R59, its registers. -/
def Sys2Proof.writeSet (op : BitVec 4) : List Reg :=
  if op = 1 then [.csumResult]
  else if op = 2 then [.csumResult, .txLen]
  else if op = 3 then
    [.rxClass, .ethertype, .ethDstHi, .ethDstLo, .ethSrcHi, .ethSrcLo, .ipSrc, .ipDst, .ipProto, .ipTotlen,
     .udpSport, .udpDport, .udpLen, .payLen, .arpHrdPro, .arpLenOp, .arpShaHi, .arpShaLo, .arpSpa, .arpThaHi,
     .arpThaLo, .arpTpa]
  else if op = 4 then [.arpResult, .txLen]
  else if op = 5 then [.matchResult]
  else []

/-- 20_memory.md R59: while a command with opcode op is pending, a read of a register of W(op), or of TXBUF when op
is ENCODE_UDP or ARP_HANDLE, returns a free value, and a read of any other register or buffer byte returns its
value exactly. It holds for every value of the free read. -/
def Obligations.ReadsWhileBusy : Prop :=
  ∀ (s : State) (w : Word), s.pend = some w →
    (∀ r : Reg, hostRead (BitVec.ofNat 14 r.addr) .w32 s =
      if r ∈ writeSet (w.extractLsb' 0 4) then
        { s with draws := s.draws + 1, hostOut := .word (Config.busyRead s.draws) :: s.hostOut }
      else { s with hostOut := .word (readReg r s) :: s.hostOut }) ∧
    (∀ (a : HostAddr) (n : Width) (b : BufSel) (i : Nat), resolve s.params a n = .bytes b i →
      hostRead a n s =
        if b = .tx ∧ (w.extractLsb' 0 4 = 2 ∨ w.extractLsb' 0 4 = 4) then
          { s with draws := s.draws + 1, hostOut := HostData.ofWord n (Config.busyRead s.draws) :: s.hostOut }
        else { s with hostOut := lanesAt (s.byteAt b) i n :: s.hostOut })

/-- 10_state.md R28 and 44_control.md R169: where each field of STATUS stands, from bit 0 up BUSY, DONE, HAZ, BUSERR,
the number of ERR and LAST_OP; and a write to STATUS clears each of DONE, HAZ and BUSERR whose bit is written as 1 and
changes nothing else. -/
def Obligations.StatusWriteClearsOnes : Prop :=
  (∀ s : State,
    ((readReg .status s).getLsbD 0 = true ↔ s.pend ≠ none) ∧ (readReg .status s).getLsbD 1 = s.done ∧
    (readReg .status s).getLsbD 2 = s.haz ∧ (readReg .status s).getLsbD 3 = s.busErr ∧
    statusCode s = errorNumber s.err ∧ (readReg .status s).extractLsb' 8 4 = s.lastOp) ∧
  ∀ (s : State) (v : Word), ∃ t, hostWrite 0x008 (.word v) s = t ∧
    readReg .status t = readReg .status s &&& ~~~ (v &&& 0x0000000E) ∧
    SameRegs [.status] s t ∧ SameBuf .rx s t ∧ SameBuf .tx s t ∧ t.pend = s.pend ∧ SameOwn s t

/-- 10_state.md R27: a write to CTRL without SRST stores bit 0 in IRQ_EN and changes nothing else, and CTRL[1]
always reads 0. -/
def Obligations.CtrlWriteSetsIrqEnable : Prop :=
  ∀ (s : State) (v : Word), v.getLsbD 1 = false → ∃ t, hostWrite 0x004 (.word v) s = t ∧
    readReg .ctrl t = v &&& 0x00000001 ∧
    SameRegs [.ctrl] s t ∧ SameBuf .rx s t ∧ SameBuf .tx s t ∧ t.pend = s.pend ∧ SameOwn s t

/-- 60_exceptions.md R186, whole: IRQ is CTRL.IRQ_EN and STATUS.DONE. It rises at the completion of every command,
legal or illegal, when IRQ_EN is 1; setting IRQ_EN while DONE is 1 raises it at once; nothing else the host does
raises it; accepting a command, acknowledging DONE and either reset clear it. -/
def Obligations.InterruptFollowsDone : Prop :=
  (∀ s : State, s.irq = ((readReg .ctrl s).getLsbD 0 && (readReg .status s).getLsbD 1)) ∧
  (∀ (s t : State) (w : Word), s.pend = some w → s.engineWait = 0 → step s = .next t → t.irq = s.irqEn) ∧
  (∀ (s : State) (v : Word), s.done = true → v.getLsbD 0 = true → v.getLsbD 1 = false →
    (hostWrite 0x004 (.word v) s).irq = true) ∧
  (∀ (s : State) (e : Input), (performInput e s).irq = true →
    s.irq = true ∨ ∃ v, e = .write 0x004 (.word v) ∧ v.getLsbD 0 = true ∧ s.done = true) ∧
  (∀ (s : State) (w : Word), s.pend = none → (hostWrite 0x00C (.word w) s).irq = false) ∧
  (∀ (s : State) (v : Word), v.getLsbD 1 = true → (hostWrite 0x008 (.word v) s).irq = false) ∧
  (∀ (s : State) (v : Word), v.getLsbD 1 = true → (hostWrite 0x004 (.word v) s).irq = false) ∧
  (∀ s : State, (performInput .hwReset s).irq = false)

/-- The reset value of a register (10_state.md R25, the last column). -/
def Sys2Proof.resetValue (r : Reg) : Word :=
  if r = .id then 0x4E455401 else if r = .payOff then 0x0000002A else 0

/-- 70_reset_and_hazards.md R202, whole: a write to CTRL with bit 1 set gives every register its reset value and
PEND none, busy or not and whatever bit 0 is, and keeps both buffers; a pending command sets no DONE. -/
def Obligations.SoftResetKeepsBuffers : Prop :=
  ∀ (s : State) (v : Word), v.getLsbD 1 = true → ∃ t, hostWrite 0x004 (.word v) s = t ∧
    (∀ r, readReg r t = resetValue r) ∧ t.pend = none ∧ t.done = false ∧ t.irqEn = false ∧
    SameBuf .rx s t ∧ SameBuf .tx s t ∧ t.params = s.params

/-- 70_reset_and_hazards.md R201: every register's value after a hardware reset, whether it is the state right
after reset or any state in which the reset input comes. PEND is none and IRQ is 0 (R200). -/
def Obligations.ResetValues : Prop :=
  (∀ r, readReg r State.reset = resetValue r) ∧ State.reset.pend = none ∧ State.reset.irq = false ∧
  ∀ s : State, ∃ t, performInput .hwReset s = t ∧ (∀ r, readReg r t = resetValue r) ∧ t.pend = none ∧
    t.irq = false ∧ t.params = s.params

/-- After a hardware reset every byte of both buffers is a free value of its own, drawn anew (70_reset_and_hazards.md
R200); the form of the draw is the model's choice (log 2). It holds for every value of the free bytes. -/
def Obligations.HardResetDrawsBuffers : Prop :=
  ∀ (s : State) (b : BufSel) (i : Nat),
    (performInput .hwReset s).byteAt b i = Config.powerOnByte (s.epoch + 1) b i

/-! ## What every command does -/

/-- 44_control.md R162 and 10_state.md R48: every command completes, in every state: BUSY = 0, DONE = 1, PEND none,
LAST_OP, HAZ and BUSERR kept. CTRL, the configuration registers and RXBUF are never written by a command. -/
def Obligations.EveryCommandCompletes : Prop :=
  ∀ (i : Instr) (s : State), ∃ (t : State) (c : ErrCode), exec i s = .next t ∧ Completed c s t ∧ SameOwn s t ∧
    t.irqEn = s.irqEn ∧ t.cfg = s.cfg ∧ SameBuf .rx s t

/-- 60_exceptions.md R180: a command that ends with an error leaves the state as it was but for STATUS: the whole
next state is the state before with ERR, DONE and BUSY as completion writes them. -/
def Obligations.ErrorChangesOnlyStatus : Prop :=
  ∀ (i : Instr) (s t : State), exec i s = .next t → t.err ≠ .noError →
    t = { s with err := t.err, done := true, pend := none }

/-- 60_exceptions.md R181: which command reports which code in STATUS[7:4], MTU_EXCEEDED being 2 and RANGE 3, and
when; every other completion of a command reports 0. (ILLEGAL_CMD, 1, is in IllegalWordCompletes.) -/
def Obligations.ErrorCodesAndCauses : Prop :=
  ∀ (i : Instr) (s t : State), exec i s = .next t →
    (statusCode t = 0 ∨ statusCode t = 2 ∨ statusCode t = 3) ∧
    (statusCode t = 2 ↔ ∃ n, i = .encodeUdp n ∧ (readReg .mtu s).toNat < n) ∧
    (statusCode t = 3 ↔
      (∃ b n, i = .csum b n ∧ s.params.bufBytes < (readReg .csumOff s).toNat + n) ∨
      (∃ n, i = .encodeUdp n ∧ n ≤ (readReg .mtu s).toNat ∧ s.params.bufBytes < 42 + n) ∨
      (∃ n, i = .decode n ∧ s.params.bufBytes < n))

/-- 41_codec.md R123 and 10_state.md R48: no command but ENCODE_UDP and ARP_HANDLE writes a byte of TXBUF or TX_LEN,
and none but DECODE writes the latched decode. -/
def Obligations.OnlyTheNamedCommandsWrite : Prop :=
  ∀ (i : Instr) (s t : State), exec i s = .next t →
    ((t.tx ≠ s.tx ∨ t.txLen ≠ s.txLen) → (∃ n, i = .encodeUdp n) ∨ ∃ n, i = .arpHandle n) ∧
    (t.latch ≠ s.latch → ∃ n, i = .decode n) ∧
    (t.csumResult ≠ s.csumResult → (∃ b n, i = .csum b n) ∨ ∃ n, i = .encodeUdp n) ∧
    (t.arpReplied ≠ s.arpReplied → ∃ n, i = .arpHandle n) ∧
    (t.matchKind ≠ s.matchKind → ∃ n, i = .matchUdp n)

/-! ## NOP and CSUM -/

/-- 44_control.md R165, whole: NOP, with any LEN, completes and changes nothing but STATUS. -/
def Obligations.NopOnlyCompletes : Prop :=
  SpelledBy 0x00000000 0x0000FFFF (fun w => .nop (lenField w)) ∧
  ∀ (n : Nat) (s : State), ∃ t, exec (.nop n) s = .next t ∧ Effect .noError [] s t ∧ SameBuf .rx s t ∧ SameBuf .tx s t

/-- 40_checksum.md R111 with R110 and R114: CSUM_RESULT is the complement of the folded sum of the slice's
big-endian words, for every offset and length inside the buffer; otherwise RANGE, and nothing else changes. -/
def Obligations.CsumResult : Prop :=
  SpelledBy 0x00000001 0x0000FFEF (fun w => .csum (if w.getLsbD 4 then .tx else .rx) (lenField w)) ∧
  ∀ (b : BufSel) (n : Nat) (s : State), s.params.Legal → ∃ t, exec (.csum b n) s = .next t ∧
    SameBuf .rx s t ∧ SameBuf .tx s t ∧
    ((readReg .csumOff s).toNat + n ≤ s.params.bufBytes →
      Effect .noError [.csumResult] s t ∧
      (readReg .csumResult t).toNat = 0xFFFF - foldedSum (sliceSum (s.byteAt b) (readReg .csumOff s).toNat n)) ∧
    (s.params.bufBytes < (readReg .csumOff s).toNat + n → Effect .range [] s t)

/-- 40_checksum.md R112, whole: a slice of at most 65535 bytes has at most 32768 words, and the 32-bit accumulator
holds their unbounded sum, at most 0x7FFF8000. -/
def Obligations.ChecksumSumNeverWraps : Prop :=
  ∀ bs : List Byte, bs.length ≤ 65535 →
    (wordsOf bs).length ≤ 32768 ∧
    (sumWords (wordsOf bs)).toNat = ((wordsOf bs).map BitVec.toNat).sum ∧ (sumWords (wordsOf bs)).toNat ≤ 0x7FFF8000

/-- 40_checksum.md R113, whole: the first fold of a slice's sum is at most 0x17FFE, the second at most 0xFFFF, so no
fold is left after two; a second fold changes the sum only when the first produced a carry; and the rule's example. -/
def Obligations.ChecksumFoldsAtMostTwice : Prop :=
  (∀ bs : List Byte, bs.length ≤ 65535 →
    (foldOnce (sumWords (wordsOf bs))).toNat ≤ 0x17FFE ∧ (foldOnce (foldOnce (sumWords (wordsOf bs)))).toNat ≤ 0xFFFF) ∧
  (∀ sum : Word, (foldCarries 2 sum).toNat ≤ 0xFFFF ∧ (∀ k, foldCarries (2 + k) sum = foldCarries 2 sum) ∧
    (foldCarries 2 sum ≠ foldCarries 1 sum → 0xFFFF < (foldOnce sum).toNat)) ∧
  sumWords [0xFFFF, 0xFFFF, 0x0001] = 0x1FFFF ∧ foldOnce 0x1FFFF = 0x10000 ∧ foldOnce 0x10000 = 0x0001 ∧
  checksumOf [0xFF, 0xFF, 0xFF, 0xFF, 0x00, 0x01] = 0xFFFE

/-- 40_checksum.md R114, whole: the result law. -/
def Obligations.ChecksumResultLaw : Prop :=
  ∀ bs : List Byte, bs.length ≤ 65535 → ∃ F : Nat,
    (checksumOf bs).toNat = 0xFFFF - F ∧ F ≤ 0xFFFF ∧
    F % 0xFFFF = ((wordsOf bs).map BitVec.toNat).sum % 0xFFFF ∧
    (F = 0 ↔ ((wordsOf bs).map BitVec.toNat).sum = 0) ∧
    (checksumOf bs = 0xFFFF ↔ ∀ w ∈ wordsOf bs, w = 0) ∧
    (checksumOf bs = 0x0000 ↔
      0 < ((wordsOf bs).map BitVec.toNat).sum ∧ ((wordsOf bs).map BitVec.toNat).sum % 0xFFFF = 0)

/-- 40_checksum.md R115, whole: writing the checksum of a slice into its zero field, at an even offset of an
even-length slice, makes the slice's checksum 0. -/
def Obligations.ChecksumVerificationLaw : Prop :=
  ∀ pre post : List Byte, pre.length % 2 = 0 → post.length % 2 = 0 → pre.length + 2 + post.length ≤ 65535 →
    checksumOf (pre ++ be16 (checksumOf (pre ++ be16 0 ++ post)) ++ post) = 0

/-- The byte string with the bytes of each pair exchanged. -/
def Sys2Proof.swapPairs : List Byte → List Byte
  | a :: b :: bs => b :: a :: swapPairs bs
  | bs => bs

/-- The halves of a 16-bit value exchanged. -/
def Sys2Proof.swapHalves (v : Half) : Half := v.extractLsb' 0 8 ++ v.extractLsb' 8 8

/-- 40_checksum.md R116, whole: for even lengths, forming the words little-endian gives the byte-swapped result; for
odd lengths the same holds when the pad byte moves to the other half of the last word, and does not hold of every
slice when it stays. -/
def Obligations.ChecksumByteSwapLaw : Prop :=
  (∀ bs : List Byte, bs.length % 2 = 0 → bs.length ≤ 65535 →
    checksumOf (swapPairs bs) = swapHalves (checksumOf bs)) ∧
  (∀ bs : List Byte, bs.length % 2 = 1 → bs.length ≤ 65535 →
    checksumOf (swapPairs (bs ++ [0x00])) = swapHalves (checksumOf bs)) ∧
  (∃ bs : List Byte, bs.length % 2 = 1 ∧ checksumOf (swapPairs bs) ≠ swapHalves (checksumOf bs))

/-! ## ENCODE_UDP -/

/-- 41_codec.md R121, whole: the frame ENCODE_UDP builds, field by field, the registers it writes, and what it leaves
alone: the payload, every byte from the frame's end on, and RXBUF. MTU_EXCEEDED is checked before RANGE, and either
leaves TXBUF, TX_LEN and CSUM_RESULT unchanged. -/
def Obligations.EncodeUdpResult : Prop :=
  SpelledBy 0x00000002 0x0000FFFF (fun w => .encodeUdp (lenField w)) ∧
  (∀ (n : Nat) (s : State), (readReg .mtu s).toNat < n →
    ∃ t, exec (.encodeUdp n) s = .next t ∧ Effect .mtuExceeded [] s t ∧ SameBuf .rx s t ∧ SameBuf .tx s t) ∧
  (∀ (n : Nat) (s : State), n ≤ (readReg .mtu s).toNat → s.params.bufBytes < 42 + n →
    ∃ t, exec (.encodeUdp n) s = .next t ∧ Effect .range [] s t ∧ SameBuf .rx s t ∧ SameBuf .tx s t) ∧
  ∀ (n : Nat) (s : State), s.params.Legal → n ≤ (readReg .mtu s).toNat → 42 + n ≤ s.params.bufBytes →
    ∃ (t : State) (c : Half), exec (.encodeUdp n) s = .next t ∧
      Effect .noError [.txLen, .csumResult] s t ∧
      be48At (t.byteAt .tx) 0 = macOf .dstMacHi .dstMacLo s ∧
      be48At (t.byteAt .tx) 6 = macOf .localMacHi .localMacLo s ∧
      be16At (t.byteAt .tx) 12 = 0x0800 ∧
      t.byteAt .tx 14 = 0x45 ∧ t.byteAt .tx 15 = 0x00 ∧
      (be16At (t.byteAt .tx) 16).toNat = 28 + n ∧
      (be16At (t.byteAt .tx) 18).setWidth 32 = readReg .ipId s ∧ be16At (t.byteAt .tx) 20 = 0x0000 ∧
      t.byteAt .tx 22 = 64 ∧ t.byteAt .tx 23 = 17 ∧
      be16At (t.byteAt .tx) 24 = c ∧
      be32At (t.byteAt .tx) 26 = readReg .localIp s ∧ be32At (t.byteAt .tx) 30 = readReg .dstIp s ∧
      (be16At (t.byteAt .tx) 34).setWidth 32 = readReg .localPort s ∧
      (be16At (t.byteAt .tx) 36).setWidth 32 = readReg .dstPort s ∧
      (be16At (t.byteAt .tx) 38).toNat = 8 + n ∧ be16At (t.byteAt .tx) 40 = 0x0000 ∧
      (∀ i, 42 + n ≤ i → i < s.params.minFrame → t.byteAt .tx i = 0x00) ∧
      (∀ i, 42 ≤ i → (i < 42 + n ∨ max (42 + n) s.params.minFrame ≤ i) → t.byteAt .tx i = s.byteAt .tx i) ∧
      SameBuf .rx s t ∧
      (readReg .txLen t).toNat = max (42 + n) s.params.minFrame ∧
      readReg .csumResult t = c.setWidth 32 ∧
      (∀ u : State, (∀ i, u.byteAt .tx i = if i = 24 ∨ i = 25 then 0 else t.byteAt .tx i) →
        c = checksumAt u .tx 14 20)

/-- The header ENCODE_UDP builds verifies: the checksum over its 20 bytes is 0 (40_checksum.md R115, R117). -/
def Obligations.EncodedHeaderVerifies : Prop :=
  ∀ (n : Nat) (s : State), s.params.Legal → n ≤ (readReg .mtu s).toNat → 42 + n ≤ s.params.bufBytes →
    ∃ t, exec (.encodeUdp n) s = .next t ∧ checksumAt t .tx 14 20 = 0

/-- The registers ENCODE_UDP reads beside MTU (41_codec.md R121). -/
def Sys2Proof.encodeOperands : List Reg :=
  [.ipId, .localMacHi, .localMacLo, .localIp, .localPort, .dstMacHi, .dstMacLo, .dstIp, .dstPort]

/-- 41_codec.md R122: the payload, and whatever else the buffers hold, enters neither the headers nor the registers
ENCODE_UDP writes; two runs with the same operand registers and payload build identical frames. -/
def Obligations.EncodeUdpIgnoresBufferContents : Prop :=
  ∀ (n : Nat) (s u : State), s.params = u.params → s.params.Legal →
    (∀ r ∈ encodeOperands, readReg r s = readReg r u) →
    n ≤ (readReg .mtu s).toNat → n ≤ (readReg .mtu u).toNat → 42 + n ≤ s.params.bufBytes →
    ∃ t v, exec (.encodeUdp n) s = .next t ∧ exec (.encodeUdp n) u = .next v ∧
      readReg .csumResult t = readReg .csumResult v ∧ readReg .txLen t = readReg .txLen v ∧
      (∀ i, i < 42 → t.byteAt .tx i = v.byteAt .tx i) ∧
      ((∀ i, 42 ≤ i → i < 42 + n → s.byteAt .tx i = u.byteAt .tx i) →
        ∀ i, i < (readReg .txLen t).toNat → t.byteAt .tx i = v.byteAt .tx i)

/-! ## DECODE -/

/-- The conditions under which DECODE of `len` bytes gives the class UDP (41_codec.md R125). -/
def Sys2Proof.UdpFrame (rd : Nat → Byte) (len : Nat) : Prop :=
  42 ≤ len ∧ be16At rd 12 = 0x0800 ∧ rd 14 = 0x45 ∧ rd 23 = 17 ∧
  8 ≤ (be16At rd 38).toNat ∧ 34 + (be16At rd 38).toNat ≤ len

/-- The conditions under which DECODE of `len` bytes gives the class ARP (41_codec.md R125). -/
def Sys2Proof.ArpFrame (rd : Nat → Byte) (len : Nat) : Prop := 42 ≤ len ∧ be16At rd 12 = 0x0806

/-- The registers DECODE writes (10_state.md R42 to R46). -/
def Sys2Proof.latchRegs : List Reg :=
  [.rxClass, .ethertype, .ethDstHi, .ethDstLo, .ethSrcHi, .ethSrcLo, .ipSrc, .ipDst, .ipProto, .ipTotlen,
   .udpSport, .udpDport, .udpLen, .payLen, .arpHrdPro, .arpLenOp, .arpShaHi, .arpShaLo, .arpSpa, .arpThaHi,
   .arpThaLo, .arpTpa]

/-- The ARP registers of the latched decode (10_state.md R46). -/
def Sys2Proof.arpRegs : List Reg :=
  [.arpHrdPro, .arpLenOp, .arpShaHi, .arpShaLo, .arpSpa, .arpThaHi, .arpThaLo, .arpTpa]

/-- The IPv4 registers of the latched decode (10_state.md R44). -/
def Sys2Proof.ipv4Regs : List Reg := [.ipSrc, .ipDst, .ipProto, .ipTotlen]

/-- The UDP registers of the latched decode that a frame fills (10_state.md R45; PAY_LEN apart). -/
def Sys2Proof.udpRegs : List Reg := [.udpSport, .udpDport, .udpLen]

/-- The Ethernet fields of the frame that `rd` reads are latched (10_state.md R43). -/
def Sys2Proof.EthLatched (rd : Nat → Byte) (t : State) : Prop :=
  readReg .ethertype t = (be16At rd 12).setWidth 32 ∧ ReadsMac .ethDstHi .ethDstLo t (be48At rd 0) ∧
  ReadsMac .ethSrcHi .ethSrcLo t (be48At rd 6)

/-- The IPv4 fields are latched (10_state.md R44). -/
def Sys2Proof.Ipv4Latched (rd : Nat → Byte) (t : State) : Prop :=
  readReg .ipProto t = (rd 14 ++ rd 23).setWidth 32 ∧ readReg .ipTotlen t = (be16At rd 16).setWidth 32 ∧
  readReg .ipSrc t = be32At rd 26 ∧ readReg .ipDst t = be32At rd 30

/-- The UDP fields are latched, PAY_LEN apart (10_state.md R45). -/
def Sys2Proof.UdpLatched (rd : Nat → Byte) (t : State) : Prop :=
  readReg .udpSport t = (be16At rd 34).setWidth 32 ∧ readReg .udpDport t = (be16At rd 36).setWidth 32 ∧
  readReg .udpLen t = (be16At rd 38).setWidth 32

/-- 41_codec.md R125, the length rule and R124: DECODE completes in every state, and only a length above the buffer
is an error, which leaves the latch as it was; it writes no buffer byte. -/
def Obligations.DecodeCompletes : Prop :=
  SpelledBy 0x00000003 0x0000FFFF (fun w => .decode (lenField w)) ∧
  ∀ (len : Nat) (s : State), ∃ t, exec (.decode len) s = .next t ∧ SameBuf .rx s t ∧ SameBuf .tx s t ∧
    (len ≤ s.params.bufBytes → Effect .noError latchRegs s t) ∧
    (s.params.bufBytes < len → Effect .range [] s t)

/-- 41_codec.md R125, the UDP class: what the latch holds after a UDP frame; the payload length is clipped to
RX_CAP (R128) and every ARP field reads 0. -/
def Obligations.DecodeUdpFrame : Prop :=
  ∀ (len : Nat) (s : State), len ≤ s.params.bufBytes → UdpFrame (s.byteAt .rx) len →
    ∃ t, exec (.decode len) s = .next t ∧ statusCode t = 0 ∧
      readReg .rxClass t = 2 ∧ readReg .ethertype t = 0x0800 ∧ readReg .ipProto t = 0x4511 ∧
      EthLatched (s.byteAt .rx) t ∧ Ipv4Latched (s.byteAt .rx) t ∧ UdpLatched (s.byteAt .rx) t ∧
      (readReg .payLen t).toNat = min ((be16At (s.byteAt .rx) 38).toNat - 8) (readReg .rxCap s).toNat ∧
      ReadsZero arpRegs t

/-- 41_codec.md R125, the ARP class: what the latch holds after an ARP frame; every IPv4 and UDP field reads 0. -/
def Obligations.DecodeArpFrame : Prop :=
  ∀ (len : Nat) (s : State), len ≤ s.params.bufBytes → ArpFrame (s.byteAt .rx) len →
    ∃ t, exec (.decode len) s = .next t ∧ statusCode t = 0 ∧
      readReg .rxClass t = 1 ∧ readReg .ethertype t = 0x0806 ∧ EthLatched (s.byteAt .rx) t ∧
      readReg .arpHrdPro t = be16At (s.byteAt .rx) 14 ++ be16At (s.byteAt .rx) 16 ∧
      readReg .arpLenOp t = s.byteAt .rx 18 ++ s.byteAt .rx 19 ++ be16At (s.byteAt .rx) 20 ∧
      ReadsMac .arpShaHi .arpShaLo t (be48At (s.byteAt .rx) 22) ∧
      readReg .arpSpa t = be32At (s.byteAt .rx) 28 ∧
      ReadsMac .arpThaHi .arpThaLo t (be48At (s.byteAt .rx) 32) ∧
      readReg .arpTpa t = be32At (s.byteAt .rx) 38 ∧
      ReadsZero ipv4Regs t ∧ ReadsZero udpRegs t ∧ readReg .payLen t = 0

/-- 41_codec.md R124 to R127: every frame that is neither a UDP nor an ARP frame completes with ERR = 0 and class
UNHANDLED. Below 14 bytes the whole latch is clear; from 14 bytes the Ethernet fields are latched; the IPv4 fields
are latched for EtherType 0x0800 from 34 bytes, the UDP fields also for a 0x45 header carrying UDP from 42 bytes;
everything else reads 0. -/
def Obligations.DecodeUnhandledFrame : Prop :=
  ∀ (len : Nat) (s : State), len ≤ s.params.bufBytes → ¬ UdpFrame (s.byteAt .rx) len →
    ¬ ArpFrame (s.byteAt .rx) len →
    ∃ t, exec (.decode len) s = .next t ∧ statusCode t = 0 ∧
      readReg .rxClass t = 0 ∧ readReg .payLen t = 0 ∧ ReadsZero arpRegs t ∧
      (if 14 ≤ len then EthLatched (s.byteAt .rx) t else ReadsZero latchRegs t) ∧
      (if 34 ≤ len ∧ be16At (s.byteAt .rx) 12 = 0x0800 then Ipv4Latched (s.byteAt .rx) t else ReadsZero ipv4Regs t) ∧
      (if 42 ≤ len ∧ be16At (s.byteAt .rx) 12 = 0x0800 ∧ s.byteAt .rx 14 = 0x45 ∧ s.byteAt .rx 23 = 17 then
        UdpLatched (s.byteAt .rx) t
       else ReadsZero udpRegs t)

/-- DECODE reads only the first `len` bytes of RXBUF and RX_CAP (41_codec.md R125, R127; 93 U5): two blocks that
agree on those latch the same headers, whatever was latched before. -/
def Obligations.DecodeDependsOnlyOnTheFrame : Prop :=
  ∀ (len : Nat) (s u : State), s.params = u.params → readReg .rxCap s = readReg .rxCap u →
    len ≤ s.params.bufBytes → (∀ i, i < len → s.byteAt .rx i = u.byteAt .rx i) →
    ∃ t v, exec (.decode len) s = .next t ∧ exec (.decode len) u = .next v ∧
      ∀ r ∈ latchRegs, readReg r t = readReg r v

/-- 41_codec.md R130, whole: what ENCODE_UDP builds, copied to RXBUF, DECODE classifies as UDP with the same
addresses, lengths and payload. -/
def Obligations.EncodeDecodeRoundTrip : Prop :=
  ∀ (n : Nat) (s t u : State), s.params.Legal → n ≤ (readReg .mtu s).toNat → 42 + n ≤ s.params.bufBytes →
    exec (.encodeUdp n) s = .next t →
    u.params = s.params → n ≤ (readReg .rxCap u).toNat →
    (∀ i, i < (readReg .txLen t).toNat → u.byteAt .rx i = t.byteAt .tx i) →
    ∃ v, exec (.decode (readReg .txLen t).toNat) u = .next v ∧ statusCode v = 0 ∧
      readReg .rxClass v = 2 ∧ (readReg .payLen v).toNat = n ∧
      (∀ i, i < n → v.byteAt .rx (42 + i) = s.byteAt .tx (42 + i)) ∧
      macOf .ethDstHi .ethDstLo v = macOf .dstMacHi .dstMacLo s ∧
      macOf .ethSrcHi .ethSrcLo v = macOf .localMacHi .localMacLo s ∧
      readReg .ipSrc v = readReg .localIp s ∧ readReg .ipDst v = readReg .dstIp s ∧
      readReg .udpSport v = readReg .localPort s ∧ readReg .udpDport v = readReg .dstPort s ∧
      (readReg .udpLen v).toNat = 8 + n ∧ (readReg .ipTotlen v).toNat = 28 + n

/-! ## ARP_HANDLE -/

/-- The latched decode is an ARP request for the local address (42_arp.md R141). -/
def Sys2Proof.RequestForUs (s : State) : Prop :=
  readReg .rxClass s = 1 ∧ readReg .arpHrdPro s = 0x00010800 ∧ (readReg .arpLenOp s).extractLsb' 0 16 = 0x0001 ∧
  readReg .arpTpa s = readReg .localIp s

/-- 42_arp.md R141, whole: without a match ARP_RESULT is 0 and nothing else changes, TX_LEN and TXBUF included; on a
match the reply, field by field, TX_LEN and ARP_RESULT, and bytes past the padded frame and RXBUF are left alone.
HLN, PLN and THA of the request, and LEN, play no part (R142). -/
def Obligations.ArpHandleResult : Prop :=
  SpelledBy 0x00000004 0x0000FFFF (fun w => .arpHandle (lenField w)) ∧
  (∀ (n : Nat) (s : State), ¬ RequestForUs s →
    ∃ t, exec (.arpHandle n) s = .next t ∧ Effect .noError [.arpResult] s t ∧ readReg .arpResult t = 0 ∧
      SameBuf .rx s t ∧ SameBuf .tx s t) ∧
  ∀ (n : Nat) (s : State), s.params.Legal → RequestForUs s →
    ∃ t, exec (.arpHandle n) s = .next t ∧ Effect .noError [.arpResult, .txLen] s t ∧
      readReg .arpResult t = 1 ∧ (readReg .txLen t).toNat = max 42 s.params.minFrame ∧
      be48At (t.byteAt .tx) 0 = macOf .arpShaHi .arpShaLo s ∧
      be48At (t.byteAt .tx) 6 = macOf .localMacHi .localMacLo s ∧
      be16At (t.byteAt .tx) 12 = 0x0806 ∧ be16At (t.byteAt .tx) 14 = 0x0001 ∧ be16At (t.byteAt .tx) 16 = 0x0800 ∧
      t.byteAt .tx 18 = 6 ∧ t.byteAt .tx 19 = 4 ∧ be16At (t.byteAt .tx) 20 = 0x0002 ∧
      be48At (t.byteAt .tx) 22 = macOf .localMacHi .localMacLo s ∧
      be32At (t.byteAt .tx) 28 = readReg .localIp s ∧
      be48At (t.byteAt .tx) 32 = macOf .arpShaHi .arpShaLo s ∧
      be32At (t.byteAt .tx) 38 = readReg .arpSpa s ∧
      (∀ i, 42 ≤ i → i < s.params.minFrame → t.byteAt .tx i = 0x00) ∧
      (∀ i, max 42 s.params.minFrame ≤ i → t.byteAt .tx i = s.byteAt .tx i) ∧
      SameBuf .rx s t

/-- The operand registers of ARP_HANDLE (42_arp.md R141). -/
def Sys2Proof.arpOperands : List Reg :=
  [.rxClass, .arpHrdPro, .arpLenOp, .arpShaHi, .arpShaLo, .arpSpa, .arpTpa, .localMacHi, .localMacLo, .localIp]

/-- 42_arp.md R140 and R144: ARP_HANDLE reads the latched decode and the local identity, no RXBUF byte and nothing
left from earlier replies: two blocks that agree on those answer alike; without a latched ARP packet there is no
reply. -/
def Obligations.ArpHandleReadsOnlyItsOperands : Prop :=
  ∀ (n m : Nat) (s u : State), s.params = u.params → s.params.Legal →
    (∀ r ∈ arpOperands, readReg r s = readReg r u) →
    ∃ t v, exec (.arpHandle n) s = .next t ∧ exec (.arpHandle m) u = .next v ∧
      readReg .arpResult t = readReg .arpResult v ∧
      (readReg .arpResult t = 1 → readReg .txLen t = readReg .txLen v ∧
        ∀ i, i < (readReg .txLen t).toNat → t.byteAt .tx i = v.byteAt .tx i) ∧
      (readReg .rxClass s ≠ 1 → readReg .arpResult t = 0)

/-- The reply, received by another block, decodes as an ARP reply (OP 2) with sender and target swapped: the sender
is the local identity, the target the original sender (42_arp.md R141, R142; 41_codec.md R125). -/
def Obligations.ArpReplyDecodesSwapped : Prop :=
  ∀ (n : Nat) (s t u : State), s.params.Legal → RequestForUs s → exec (.arpHandle n) s = .next t →
    u.params = s.params → (∀ i, i < (readReg .txLen t).toNat → u.byteAt .rx i = t.byteAt .tx i) →
    ∃ v, exec (.decode (readReg .txLen t).toNat) u = .next v ∧ readReg .rxClass v = 1 ∧
      readReg .arpHrdPro v = readReg .arpHrdPro s ∧ readReg .arpLenOp v = 0x06040002 ∧
      macOf .ethDstHi .ethDstLo v = macOf .arpShaHi .arpShaLo s ∧
      macOf .ethSrcHi .ethSrcLo v = macOf .localMacHi .localMacLo s ∧
      macOf .arpShaHi .arpShaLo v = macOf .localMacHi .localMacLo s ∧
      readReg .arpSpa v = readReg .localIp s ∧
      macOf .arpThaHi .arpThaLo v = macOf .arpShaHi .arpShaLo s ∧
      readReg .arpTpa v = readReg .arpSpa s

/-! ## MATCH_UDP -/

/-- 43_rx_filter.md R151, whole: the outcome of the comparison as MATCH_RESULT reads it, unicast first, and that
nothing else but STATUS changes. -/
def Obligations.MatchUdpResult : Prop :=
  SpelledBy 0x00000005 0x0000FFFF (fun w => .matchUdp (lenField w)) ∧
  ∀ (n : Nat) (s : State), ∃ t, exec (.matchUdp n) s = .next t ∧ Effect .noError [.matchResult] s t ∧
    SameBuf .rx s t ∧ SameBuf .tx s t ∧
    (readReg .matchResult t = 1 ↔
      readReg .rxClass s = 2 ∧ readReg .ipDst s = readReg .localIp s ∧ readReg .udpDport s = readReg .localPort s) ∧
    (readReg .matchResult t = 2 ↔
      readReg .rxClass s = 2 ∧
      ¬ (readReg .ipDst s = readReg .localIp s ∧ readReg .udpDport s = readReg .localPort s) ∧
      readReg .mcastCfg s = 1 ∧ readReg .ipDst s = readReg .mcastIp s ∧
      readReg .udpDport s = readReg .mcastPort s) ∧
    (readReg .matchResult t = 0 ∨ readReg .matchResult t = 1 ∨ readReg .matchResult t = 2)

/-! ## Invariants -/

/-- Every step keeps the invariant (10_state.md R24, R41 to R46, R48; 41_codec.md R125, R126; 20_memory.md R61). -/
def Obligations.StepKeepsInvariant : Prop := ∀ s t : State, s.Inv → step s = .next t → t.Inv

/-- The invariant holds right after reset, for the default parameters and for every legal choice of them. -/
def Obligations.InvariantAtReset : Prop :=
  State.reset.Inv ∧ ∀ p : Config.Params, p.Legal → (State.resetWith p).Inv

/-- 41_codec.md R126: a step changes the latched decode only when it performs a DECODE without error, which then
describes the frame in RXBUF, or when it resets the block, which clears it. -/
def Obligations.LatchChangesOnlyByDecodeOrReset : Prop :=
  ∀ s t : State, step s = .next t → t.latch ≠ s.latch →
    (∃ (w : Word) (len : Nat), s.pend = some w ∧ s.engineWait = 0 ∧ decodeWord w = .ok (.decode len) ∧
      len ≤ s.params.bufBytes ∧ t.latch = decodeFrame (s.byteAt .rx) len s.cfg.rxCap) ∨
    (∃ e, s.hostIn.head? = some e ∧ e.resets = true ∧ t.latch = Latch.cleared)

/-- 10_state.md R48: no command writes RXBUF. A step changes a byte of it only when the host writes that byte while
the block is idle, or when the reset input comes. -/
def Obligations.RxBufChangesOnlyByHost : Prop :=
  ∀ (s t : State) (i : Nat), step s = .next t → t.byteAt .rx i ≠ s.byteAt .rx i →
    s.hostIn.head? = some .hwReset ∨
    (∃ (a : HostAddr) (v : HostData), s.hostIn.head? = some (.write a v) ∧ s.pend = none ∧
      0x1000 ≤ a.toNat ∧ a.toNat ≤ 0x1000 + i ∧ 0x1000 + i < a.toNat + v.width.bytes)

/-- No step changes the parameters (10_state.md R23). -/
def Obligations.ParametersNeverChange : Prop := ∀ s t : State, step s = .next t → t.params = s.params

/-- 44_control.md R163: one command at a time. While a command is pending, no step makes another word pending: it
stays pending, or is done, or a reset discards it. -/
def Obligations.OneCommandAtATime : Prop :=
  ∀ (s t : State) (w : Word), s.pend = some w → step s = .next t →
    (t.pend = some w ∧ t.lastOp = s.lastOp ∧ s.engineWait = t.engineWait + 1) ∨ t.pend = none

/-- 60_exceptions.md R183: HAZ and BUSERR are cleared only by the host: the engine's step keeps both, and an input
clears neither unless it is a write to STATUS with that bit set, or a reset. -/
def Obligations.StickyBitsStay : Prop :=
  (∀ (s t : State) (w : Word), s.pend = some w → s.engineWait = 0 → step s = .next t →
    t.haz = s.haz ∧ t.busErr = s.busErr) ∧
  ∀ (s : State) (e : Input), Input.resets e = false →
    (∀ v, e = .write 0x008 (.word v) → v.getLsbD 2 = false ∧ v.getLsbD 3 = false) →
    (s.haz = true → (performInput e s).haz = true) ∧ (s.busErr = true → (performInput e s).busErr = true)
end

