-- ==== Sys2Proof/Laws/Encoding.lean ====
section
/-! SUPPORT. The laws of the command word: words as numbers, the fields of an encoded command, and when a word is
legal. -/

namespace Sys2Proof

/-- Concatenation as arithmetic: `{a, b}` is `a * 2^n + b`. -/
theorem toNat_append_eq_add {m n : Nat} (a : BitVec m) (b : BitVec n) :
    (a ++ b).toNat = a.toNat * 2 ^ n + b.toNat := by
  rw [BitVec.toNat_append, ← Nat.shiftLeft_add_eq_or_of_lt b.isLt, Nat.shiftLeft_eq]

/-- A field as arithmetic. -/
theorem toNat_extract {m : Nat} (v : BitVec m) (lo n : Nat) :
    (v.extractLsb' lo n).toNat = v.toNat / 2 ^ lo % 2 ^ n := by
  rw [BitVec.extractLsb'_toNat, Nat.shiftRight_eq_div_pow]

theorem opcode_lt (i : Instr) : i.opcode.toNat ≤ 5 := by cases i <;> simp [Instr.opcode]

theorem bufBit_le (i : Instr) : i.bufBit.toNat ≤ 1 := by have := i.bufBit.isLt; omega

/-- The command word as a number (30_encoding.md R70, R75). -/
theorem toNat_encode (i : Instr) :
    (encode i).toNat = i.len % 65536 * 65536 + i.bufBit.toNat * 16 + i.opcode.toNat := by
  have h : (encode i).toNat =
      (BitVec.ofNat 16 i.len ++ 0#11 ++ i.bufBit ++ i.opcode : BitVec (16 + 11 + 1 + 4)).toNat := rfl
  rw [h, toNat_append_eq_add, toNat_append_eq_add, toNat_append_eq_add, BitVec.toNat_ofNat, BitVec.toNat_ofNat]
  have := i.bufBit.isLt
  omega

theorem opField_encode (i : Instr) : opField (encode i) = i.opcode := by
  apply BitVec.eq_of_toNat_eq
  rw [opField, toNat_extract, toNat_encode]
  have := i.opcode.isLt
  omega

theorem bufField_encode (i : Instr) : bufField (encode i) = i.bufBit := by
  apply BitVec.eq_of_toNat_eq
  rw [bufField, toNat_extract, toNat_encode]
  have := i.opcode.isLt
  have := i.bufBit.isLt
  omega

theorem rsvField_encode (i : Instr) : rsvField (encode i) = 0 := by
  apply BitVec.eq_of_toNat_eq
  rw [rsvField, toNat_extract, toNat_encode]
  have := i.opcode.isLt
  have := i.bufBit.isLt
  have : (0 : BitVec 11).toNat = 0 := rfl
  omega

theorem lenField_encode (i : Instr) : lenField (encode i) = i.len % 65536 := by
  rw [lenField, toNat_extract, toNat_encode]
  have := i.opcode.isLt
  have := i.bufBit.isLt
  omega

/-- A word is determined by its four fields. -/
theorem toNat_fields (w : Word) :
    w.toNat = lenField w * 65536 + (rsvField w).toNat * 32 + (bufField w).toNat * 16 + (opField w).toNat := by
  rw [lenField, rsvField, bufField, opField, toNat_extract, toNat_extract, toNat_extract, toNat_extract]
  have := w.isLt
  omega

/-- Two words with the same fields are the same word. -/
theorem word_eq_of_fields {v w : Word} (hl : lenField v = lenField w) (hr : rsvField v = rsvField w)
    (hb : bufField v = bufField w) (ho : opField v = opField w) : v = w := by
  apply BitVec.eq_of_toNat_eq
  rw [toNat_fields v, toNat_fields w, hl, hr, hb, ho]

/-- The fields of a masked word are the masked fields. -/
theorem fields_and (w m : Word) :
    opField (w &&& m) = opField w &&& opField m ∧ bufField (w &&& m) = bufField w &&& bufField m ∧
    rsvField (w &&& m) = rsvField w &&& rsvField m := by
  simp [opField, bufField, rsvField, BitVec.extractLsb'_and]

theorem lenField_and (w m : Word) : lenField (w &&& m) = (w.extractLsb' 16 16 &&& m.extractLsb' 16 16).toNat := by
  rw [lenField, BitVec.extractLsb'_and]

theorem lenField_lt (w : Word) : lenField w < 65536 := (w.extractLsb' 16 16).isLt

/-- The fields the decoder reads, and that it reads nothing else: what a decoded word says of its command. -/
theorem decodeWord_ok {w : Word} {i : Instr} (h : decodeWord w = .ok i) :
    rsvField w = 0 ∧ opField w = i.opcode ∧ bufField w = i.bufBit ∧ lenField w = i.len := by
  unfold decodeWord at h
  split at h
  · cases h
  · rename_i hr
    split at h
    · cases h
    · split at h
      · cases h
      · rename_i ho hb
        have hbuf : bufField w = 0#1 ∨ bufField w = 1#1 := BitVec.eq_zero_or_eq_one _
        have hop' : opField w = BitVec.ofNat 4 (opField w).toNat := by simp
        refine ⟨by simpa using hr, ?_⟩
        split at h <;> rename_i hop <;> cases h <;> rw [hop] at hop' <;>
          rcases hbuf with hz | hz <;>
          simp_all [Instr.opcode, Instr.bufBit, Instr.len, bufOfBit]

/-- A word with the fields of a command decodes to it. -/
theorem decodeWord_of_fields {w : Word} {i : Instr} (hr : rsvField w = 0) (ho : opField w = i.opcode)
    (hb : bufField w = i.bufBit) (hl : lenField w = i.len) : decodeWord w = .ok i := by
  rcases i with n | ⟨_ | _, n⟩ | n | n | n | n <;>
    simp [decodeWord, hr, ho, hb, hl, Instr.opcode, Instr.bufBit, Instr.len, bufOfBit]

/-- A word is legal exactly when RSV is 0, its opcode is at most 5, and BUF is 0 or the command is CSUM
(30_encoding.md R73). -/
theorem decodeWord_legal (w : Word) :
    (∃ i, decodeWord w = .ok i) ↔ rsvField w = 0 ∧ (opField w).toNat ≤ 5 ∧ (bufField w = 1 → opField w = 1) := by
  constructor
  · rintro ⟨i, h⟩
    obtain ⟨hr, ho, hb, -⟩ := decodeWord_ok h
    refine ⟨hr, ho ▸ opcode_lt i, ?_⟩
    rw [ho, hb]
    rcases i with n | ⟨_ | _, n⟩ | n | n | n | n <;> simp [Instr.opcode, Instr.bufBit]
  · rintro ⟨hr, ho, hb⟩
    have h1 : ¬ (opField w).toNat > 5 := by omega
    have h2 : ¬ (bufField w = 1 ∧ opField w ≠ 1) := fun h => h.2 (hb h.1)
    unfold decodeWord
    rw [if_neg (by simpa using hr), if_neg h1, if_neg h2]
    have : (opField w).toNat = 0 ∨ (opField w).toNat = 1 ∨ (opField w).toNat = 2 ∨ (opField w).toNat = 3 ∨
        (opField w).toNat = 4 ∨ (opField w).toNat = 5 := by omega
    rcases this with h | h | h | h | h | h <;> rw [h] <;> exact ⟨_, rfl⟩

end Sys2Proof
end

