-- ==== Sys2Proof/Laws/Checksum.lean ====
section
/-! SUPPORT. The laws of the checksum engine as arithmetic: the accumulator, one fold, the fold loop, the words of a
slice, and the slice itself. -/

namespace Sys2Proof.Machine

/-! ## The accumulator -/

/-- The accumulator from any start, as long as it cannot pass 32 bits. -/
theorem foldl_sum_toNat (ws : List Half) (acc : Word) (h : acc.toNat + ws.length * 65535 < 2 ^ 32) :
    (ws.foldl (fun sum w => sum + w.setWidth 32) acc).toNat = acc.toNat + (ws.map BitVec.toNat).sum := by
  induction ws generalizing acc with
  | nil => simp
  | cons w ws ih =>
    simp only [List.length_cons] at h
    have hw := w.isLt
    have hadd : (acc + w.setWidth 32).toNat = acc.toNat + w.toNat := by
      rw [BitVec.toNat_add, BitVec.toNat_setWidth]
      omega
    rw [List.foldl_cons, ih _ (by rw [hadd]; omega), hadd, List.map_cons, List.sum_cons, Nat.add_assoc]

/-- The accumulator after at most 65537 words is the unbounded sum (40_checksum.md R112). -/
theorem sumWords_toNat (ws : List Half) (h : ws.length ≤ 65537) :
    (sumWords ws).toNat = (ws.map BitVec.toNat).sum := by
  have h0 : (0 : Word).toNat = 0 := rfl
  have := foldl_sum_toNat ws 0 (by omega)
  simpa [sumWords] using this

theorem sum_le_length_mul (ws : List Half) : (ws.map BitVec.toNat).sum ≤ ws.length * 65535 := by
  induction ws with
  | nil => simp
  | cons w ws ih =>
    have := w.isLt
    simp only [List.map_cons, List.sum_cons, List.length_cons]
    omega

/-! ## Folding -/

/-- One fold, exactly. -/
theorem foldOnce_toNat (sum : Word) : (foldOnce sum).toNat = sum.toNat % 65536 + sum.toNat / 65536 := by
  have := sum.isLt
  rw [foldOnce, BitVec.toNat_add, BitVec.toNat_setWidth, BitVec.toNat_setWidth, toNat_extract, toNat_extract,
    Nat.pow_zero, Nat.div_one]
  simp only [Nat.reducePow]
  have hq : sum.toNat / 65536 < 65536 := by omega
  rw [Nat.mod_eq_of_lt hq]
  omega

theorem high_eq_zero_iff (sum : Word) : sum.extractLsb' 16 16 = 0 ↔ sum.toNat < 65536 := by
  rw [← BitVec.toNat_inj, toNat_extract]
  have := sum.isLt
  have h0 : (0 : BitVec 16).toNat = 0 := rfl
  omega

theorem foldCarries_of_small {sum : Word} (h : sum.toNat < 65536) (k : Nat) : foldCarries k sum = sum := by
  cases k with
  | zero => rfl
  | succ k => rw [foldCarries, if_pos ((high_eq_zero_iff sum).mpr h)]

theorem foldCarries_succ_of_large {sum : Word} (h : 65536 ≤ sum.toNat) (k : Nat) :
    foldCarries (k + 1) sum = foldCarries k (foldOnce sum) := by
  rw [foldCarries, if_neg]
  rw [high_eq_zero_iff]
  omega

/-- Two folds leave at most 16 bits (40_checksum.md R113), and keep the sum modulo 0xFFFF and whether it is 0. -/
theorem foldCarries_two (sum : Word) :
    (foldCarries 2 sum).toNat < 65536 ∧ (foldCarries 2 sum).toNat % 65535 = sum.toNat % 65535 ∧
    ((foldCarries 2 sum).toNat = 0 ↔ sum.toNat = 0) := by
  have hs := sum.isLt
  by_cases h0 : sum.toNat < 65536
  · rw [foldCarries_of_small h0]
    exact ⟨h0, rfl, Iff.rfl⟩
  · rw [foldCarries_succ_of_large (by omega)]
    have h1 := foldOnce_toNat sum
    by_cases h2 : (foldOnce sum).toNat < 65536
    · rw [foldCarries_of_small h2, h1]
      omega
    · rw [foldCarries_succ_of_large (by omega), foldCarries, foldOnce_toNat, h1]
      omega

/-- Folding `j + k` times is folding `j` times and then `k` times. -/
theorem foldCarries_add (j k : Nat) (x : Word) : foldCarries (j + k) x = foldCarries k (foldCarries j x) := by
  induction j generalizing x with
  | zero => rw [Nat.zero_add, foldCarries]
  | succ j ih =>
    rw [show j + 1 + k = (j + k) + 1 by omega, foldCarries, foldCarries]
    split
    · rw [foldCarries_of_small ((high_eq_zero_iff _).mp ‹_›)]
    · exact ih _

theorem sum_eq_zero_iff (ws : List Half) : (ws.map BitVec.toNat).sum = 0 ↔ ∀ w ∈ ws, w = 0 := by
  induction ws with
  | nil => simp
  | cons w ws ih =>
    simp only [List.map_cons, List.sum_cons, List.forall_mem_cons, Nat.add_eq_zero_iff, ih]
    rw [← BitVec.toNat_inj]
    rfl

/-- The checksum as a number, in terms of the fold loop's result. -/
theorem checksumOf_toNat_eq (bs : List Byte) :
    (checksumOf bs).toNat = 65535 - (foldCarries 2 (sumWords (wordsOf bs))).toNat := by
  have h := (foldCarries_two (sumWords (wordsOf bs))).1
  rw [checksumOf, BitVec.toNat_not, toNat_extract]
  omega

/-! ## Words and slices -/

theorem wordsOf_length (bs : List Byte) : (wordsOf bs).length = (bs.length + 1) / 2 := by
  induction bs using wordsOf.induct with
  | case1 => rfl
  | case2 b => simp [wordsOf]
  | case3 hi lo bs ih => simp only [wordsOf, List.length_cons, ih]; omega

/-- The words of a string are those of an even-length front part and those of the rest. -/
theorem wordsOf_append {pre : List Byte} (post : List Byte) (h : pre.length % 2 = 0) :
    wordsOf (pre ++ post) = wordsOf pre ++ wordsOf post := by
  induction pre using wordsOf.induct with
  | case1 => rfl
  | case2 b => simp at h
  | case3 hi lo bs ih =>
    simp only [List.length_cons] at h
    simp only [List.cons_append, wordsOf, ih (by omega)]

@[simp] theorem sliceAt_length (rd : Nat → Byte) (off n : Nat) : (sliceAt rd off n).length = n := by
  induction n generalizing off with
  | zero => rfl
  | succ n ih => simp [sliceAt, ih]

/-- Byte `k` of a slice is byte `off + k` of the buffer. -/
theorem sliceAt_getElem? (rd : Nat → Byte) (off n k : Nat) (h : k < n) : (sliceAt rd off n)[k]? = some (rd (off + k)) := by
  induction n generalizing off k with
  | zero => omega
  | succ n ih =>
    cases k with
    | zero => simp [sliceAt]
    | succ k =>
      rw [sliceAt, List.getElem?_cons_succ, ih _ _ (by omega)]
      congr 2
      omega

/-- A slice depends only on the bytes it covers. -/
theorem sliceAt_congr {rd rd' : Nat → Byte} {off n : Nat} (h : ∀ k, k < n → rd (off + k) = rd' (off + k)) :
    sliceAt rd off n = sliceAt rd' off n := by
  induction n generalizing off with
  | zero => rfl
  | succ n ih =>
    rw [sliceAt, sliceAt, show rd off = rd' off from h 0 (by omega), ih]
    intro k hk
    have := h (k + 1) (by omega)
    rwa [show off + (k + 1) = off + 1 + k by omega] at this

/-- A slice of a list read by index is the list. -/
theorem sliceAt_eq_of_getElem? {rd : Nat → Byte} {off : Nat} {bs : List Byte}
    (h : ∀ k, k < bs.length → bs[k]? = some (rd (off + k))) : sliceAt rd off bs.length = bs := by
  apply List.ext_getElem?
  intro k
  by_cases hk : k < bs.length
  · rw [sliceAt_getElem? _ _ _ _ hk, h k hk]
  · rw [List.getElem?_eq_none (by simp; omega), List.getElem?_eq_none (by omega)]

end Sys2Proof.Machine
end

