-- ==== Sys2Proof/Laws/State.lean ====
section
/-! SUPPORT. One lemma per field per update of the state, each true by rfl, so that no proof unfolds a record
update: what every named update writes and what it leaves. -/

namespace Sys2Proof.Machine

variable (s : State)

/-! ## complete -/

@[simp] theorem complete_params (c : ErrCode) : (complete c s).params = s.params := rfl
@[simp] theorem complete_irqEn (c : ErrCode) : (complete c s).irqEn = s.irqEn := rfl
@[simp] theorem complete_done (c : ErrCode) : (complete c s).done = true := rfl
@[simp] theorem complete_haz (c : ErrCode) : (complete c s).haz = s.haz := rfl
@[simp] theorem complete_busErr (c : ErrCode) : (complete c s).busErr = s.busErr := rfl
@[simp] theorem complete_err (c : ErrCode) : (complete c s).err = c := rfl
@[simp] theorem complete_lastOp (c : ErrCode) : (complete c s).lastOp = s.lastOp := rfl
@[simp] theorem complete_pend (c : ErrCode) : (complete c s).pend = none := rfl
@[simp] theorem complete_cfg (c : ErrCode) : (complete c s).cfg = s.cfg := rfl
@[simp] theorem complete_csumResult (c : ErrCode) : (complete c s).csumResult = s.csumResult := rfl
@[simp] theorem complete_txLen (c : ErrCode) : (complete c s).txLen = s.txLen := rfl
@[simp] theorem complete_latch (c : ErrCode) : (complete c s).latch = s.latch := rfl
@[simp] theorem complete_arpReplied (c : ErrCode) : (complete c s).arpReplied = s.arpReplied := rfl
@[simp] theorem complete_matchKind (c : ErrCode) : (complete c s).matchKind = s.matchKind := rfl
@[simp] theorem complete_rx (c : ErrCode) : (complete c s).rx = s.rx := rfl
@[simp] theorem complete_tx (c : ErrCode) : (complete c s).tx = s.tx := rfl
@[simp] theorem complete_epoch (c : ErrCode) : (complete c s).epoch = s.epoch := rfl
@[simp] theorem complete_engineWait (c : ErrCode) : (complete c s).engineWait = s.engineWait := rfl
@[simp] theorem complete_accepted (c : ErrCode) : (complete c s).accepted = s.accepted := rfl
@[simp] theorem complete_draws (c : ErrCode) : (complete c s).draws = s.draws := rfl
@[simp] theorem complete_hostIn (c : ErrCode) : (complete c s).hostIn = s.hostIn := rfl
@[simp] theorem complete_hostOut (c : ErrCode) : (complete c s).hostOut = s.hostOut := rfl

/-! ## loadCommand -/

@[simp] theorem loadCommand_params (w : Word) (d : Nat) : (loadCommand w d s).params = s.params := rfl
@[simp] theorem loadCommand_irqEn (w : Word) (d : Nat) : (loadCommand w d s).irqEn = s.irqEn := rfl
@[simp] theorem loadCommand_done (w : Word) (d : Nat) : (loadCommand w d s).done = false := rfl
@[simp] theorem loadCommand_haz (w : Word) (d : Nat) : (loadCommand w d s).haz = s.haz := rfl
@[simp] theorem loadCommand_busErr (w : Word) (d : Nat) : (loadCommand w d s).busErr = s.busErr := rfl
@[simp] theorem loadCommand_err (w : Word) (d : Nat) : (loadCommand w d s).err = .noError := rfl
@[simp] theorem loadCommand_lastOp (w : Word) (d : Nat) : (loadCommand w d s).lastOp = opField w := rfl
@[simp] theorem loadCommand_pend (w : Word) (d : Nat) : (loadCommand w d s).pend = some w := rfl
@[simp] theorem loadCommand_cfg (w : Word) (d : Nat) : (loadCommand w d s).cfg = s.cfg := rfl
@[simp] theorem loadCommand_csumResult (w : Word) (d : Nat) : (loadCommand w d s).csumResult = s.csumResult := rfl
@[simp] theorem loadCommand_txLen (w : Word) (d : Nat) : (loadCommand w d s).txLen = s.txLen := rfl
@[simp] theorem loadCommand_latch (w : Word) (d : Nat) : (loadCommand w d s).latch = s.latch := rfl
@[simp] theorem loadCommand_arpReplied (w : Word) (d : Nat) : (loadCommand w d s).arpReplied = s.arpReplied := rfl
@[simp] theorem loadCommand_matchKind (w : Word) (d : Nat) : (loadCommand w d s).matchKind = s.matchKind := rfl
@[simp] theorem loadCommand_rx (w : Word) (d : Nat) : (loadCommand w d s).rx = s.rx := rfl
@[simp] theorem loadCommand_tx (w : Word) (d : Nat) : (loadCommand w d s).tx = s.tx := rfl
@[simp] theorem loadCommand_epoch (w : Word) (d : Nat) : (loadCommand w d s).epoch = s.epoch := rfl
@[simp] theorem loadCommand_engineWait (w : Word) (d : Nat) : (loadCommand w d s).engineWait = d := rfl
@[simp] theorem loadCommand_accepted (w : Word) (d : Nat) : (loadCommand w d s).accepted = s.accepted := rfl
@[simp] theorem loadCommand_draws (w : Word) (d : Nat) : (loadCommand w d s).draws = s.draws := rfl
@[simp] theorem loadCommand_hostIn (w : Word) (d : Nat) : (loadCommand w d s).hostIn = s.hostIn := rfl
@[simp] theorem loadCommand_hostOut (w : Word) (d : Nat) : (loadCommand w d s).hostOut = s.hostOut := rfl

/-! ## softReset -/

@[simp] theorem softReset_params : (softReset s).params = s.params := rfl
@[simp] theorem softReset_irqEn : (softReset s).irqEn = false := rfl
@[simp] theorem softReset_done : (softReset s).done = false := rfl
@[simp] theorem softReset_haz : (softReset s).haz = false := rfl
@[simp] theorem softReset_busErr : (softReset s).busErr = false := rfl
@[simp] theorem softReset_err : (softReset s).err = .noError := rfl
@[simp] theorem softReset_lastOp : (softReset s).lastOp = 0 := rfl
@[simp] theorem softReset_pend : (softReset s).pend = none := rfl
@[simp] theorem softReset_cfg : (softReset s).cfg = .reset := rfl
@[simp] theorem softReset_csumResult : (softReset s).csumResult = 0 := rfl
@[simp] theorem softReset_txLen : (softReset s).txLen = 0 := rfl
@[simp] theorem softReset_latch : (softReset s).latch = .cleared := rfl
@[simp] theorem softReset_arpReplied : (softReset s).arpReplied = false := rfl
@[simp] theorem softReset_matchKind : (softReset s).matchKind = .noMatch := rfl
@[simp] theorem softReset_rx : (softReset s).rx = s.rx := rfl
@[simp] theorem softReset_tx : (softReset s).tx = s.tx := rfl
@[simp] theorem softReset_epoch : (softReset s).epoch = s.epoch := rfl
@[simp] theorem softReset_engineWait : (softReset s).engineWait = 0 := rfl
@[simp] theorem softReset_accepted : (softReset s).accepted = s.accepted := rfl
@[simp] theorem softReset_draws : (softReset s).draws = s.draws := rfl
@[simp] theorem softReset_hostIn : (softReset s).hostIn = s.hostIn := rfl
@[simp] theorem softReset_hostOut : (softReset s).hostOut = s.hostOut := rfl

/-! ## hardReset -/

@[simp] theorem hardReset_params : (hardReset s).params = s.params := rfl
@[simp] theorem hardReset_irqEn : (hardReset s).irqEn = false := rfl
@[simp] theorem hardReset_done : (hardReset s).done = false := rfl
@[simp] theorem hardReset_haz : (hardReset s).haz = false := rfl
@[simp] theorem hardReset_busErr : (hardReset s).busErr = false := rfl
@[simp] theorem hardReset_err : (hardReset s).err = .noError := rfl
@[simp] theorem hardReset_lastOp : (hardReset s).lastOp = 0 := rfl
@[simp] theorem hardReset_pend : (hardReset s).pend = none := rfl
@[simp] theorem hardReset_cfg : (hardReset s).cfg = .reset := rfl
@[simp] theorem hardReset_csumResult : (hardReset s).csumResult = 0 := rfl
@[simp] theorem hardReset_txLen : (hardReset s).txLen = 0 := rfl
@[simp] theorem hardReset_latch : (hardReset s).latch = .cleared := rfl
@[simp] theorem hardReset_arpReplied : (hardReset s).arpReplied = false := rfl
@[simp] theorem hardReset_matchKind : (hardReset s).matchKind = .noMatch := rfl
@[simp] theorem hardReset_rx : (hardReset s).rx = [] := rfl
@[simp] theorem hardReset_tx : (hardReset s).tx = [] := rfl
@[simp] theorem hardReset_epoch : (hardReset s).epoch = s.epoch + 1 := rfl
@[simp] theorem hardReset_engineWait : (hardReset s).engineWait = 0 := rfl
@[simp] theorem hardReset_accepted : (hardReset s).accepted = s.accepted := rfl
@[simp] theorem hardReset_draws : (hardReset s).draws = s.draws := rfl
@[simp] theorem hardReset_hostIn : (hardReset s).hostIn = s.hostIn := rfl
@[simp] theorem hardReset_hostOut : (hardReset s).hostOut = s.hostOut := rfl

/-! ## storeBytes in RXBUF -/

@[simp] theorem storeBytes_rxbuf_params (i : Nat) (bs : List Byte) : (s.storeBytes .rx i bs).params = s.params := rfl
@[simp] theorem storeBytes_rxbuf_irqEn (i : Nat) (bs : List Byte) : (s.storeBytes .rx i bs).irqEn = s.irqEn := rfl
@[simp] theorem storeBytes_rxbuf_done (i : Nat) (bs : List Byte) : (s.storeBytes .rx i bs).done = s.done := rfl
@[simp] theorem storeBytes_rxbuf_haz (i : Nat) (bs : List Byte) : (s.storeBytes .rx i bs).haz = s.haz := rfl
@[simp] theorem storeBytes_rxbuf_busErr (i : Nat) (bs : List Byte) : (s.storeBytes .rx i bs).busErr = s.busErr := rfl
@[simp] theorem storeBytes_rxbuf_err (i : Nat) (bs : List Byte) : (s.storeBytes .rx i bs).err = s.err := rfl
@[simp] theorem storeBytes_rxbuf_lastOp (i : Nat) (bs : List Byte) : (s.storeBytes .rx i bs).lastOp = s.lastOp := rfl
@[simp] theorem storeBytes_rxbuf_pend (i : Nat) (bs : List Byte) : (s.storeBytes .rx i bs).pend = s.pend := rfl
@[simp] theorem storeBytes_rxbuf_cfg (i : Nat) (bs : List Byte) : (s.storeBytes .rx i bs).cfg = s.cfg := rfl
@[simp] theorem storeBytes_rxbuf_csumResult (i : Nat) (bs : List Byte) : (s.storeBytes .rx i bs).csumResult = s.csumResult := rfl
@[simp] theorem storeBytes_rxbuf_txLen (i : Nat) (bs : List Byte) : (s.storeBytes .rx i bs).txLen = s.txLen := rfl
@[simp] theorem storeBytes_rxbuf_latch (i : Nat) (bs : List Byte) : (s.storeBytes .rx i bs).latch = s.latch := rfl
@[simp] theorem storeBytes_rxbuf_arpReplied (i : Nat) (bs : List Byte) : (s.storeBytes .rx i bs).arpReplied = s.arpReplied := rfl
@[simp] theorem storeBytes_rxbuf_matchKind (i : Nat) (bs : List Byte) : (s.storeBytes .rx i bs).matchKind = s.matchKind := rfl
@[simp] theorem storeBytes_rxbuf_rx (i : Nat) (bs : List Byte) : (s.storeBytes .rx i bs).rx = Memory.writeList s.rx i bs := rfl
@[simp] theorem storeBytes_rxbuf_tx (i : Nat) (bs : List Byte) : (s.storeBytes .rx i bs).tx = s.tx := rfl
@[simp] theorem storeBytes_rxbuf_epoch (i : Nat) (bs : List Byte) : (s.storeBytes .rx i bs).epoch = s.epoch := rfl
@[simp] theorem storeBytes_rxbuf_engineWait (i : Nat) (bs : List Byte) : (s.storeBytes .rx i bs).engineWait = s.engineWait := rfl
@[simp] theorem storeBytes_rxbuf_accepted (i : Nat) (bs : List Byte) : (s.storeBytes .rx i bs).accepted = s.accepted := rfl
@[simp] theorem storeBytes_rxbuf_draws (i : Nat) (bs : List Byte) : (s.storeBytes .rx i bs).draws = s.draws := rfl
@[simp] theorem storeBytes_rxbuf_hostIn (i : Nat) (bs : List Byte) : (s.storeBytes .rx i bs).hostIn = s.hostIn := rfl
@[simp] theorem storeBytes_rxbuf_hostOut (i : Nat) (bs : List Byte) : (s.storeBytes .rx i bs).hostOut = s.hostOut := rfl

/-! ## storeBytes in TXBUF -/

@[simp] theorem storeBytes_txbuf_params (i : Nat) (bs : List Byte) : (s.storeBytes .tx i bs).params = s.params := rfl
@[simp] theorem storeBytes_txbuf_irqEn (i : Nat) (bs : List Byte) : (s.storeBytes .tx i bs).irqEn = s.irqEn := rfl
@[simp] theorem storeBytes_txbuf_done (i : Nat) (bs : List Byte) : (s.storeBytes .tx i bs).done = s.done := rfl
@[simp] theorem storeBytes_txbuf_haz (i : Nat) (bs : List Byte) : (s.storeBytes .tx i bs).haz = s.haz := rfl
@[simp] theorem storeBytes_txbuf_busErr (i : Nat) (bs : List Byte) : (s.storeBytes .tx i bs).busErr = s.busErr := rfl
@[simp] theorem storeBytes_txbuf_err (i : Nat) (bs : List Byte) : (s.storeBytes .tx i bs).err = s.err := rfl
@[simp] theorem storeBytes_txbuf_lastOp (i : Nat) (bs : List Byte) : (s.storeBytes .tx i bs).lastOp = s.lastOp := rfl
@[simp] theorem storeBytes_txbuf_pend (i : Nat) (bs : List Byte) : (s.storeBytes .tx i bs).pend = s.pend := rfl
@[simp] theorem storeBytes_txbuf_cfg (i : Nat) (bs : List Byte) : (s.storeBytes .tx i bs).cfg = s.cfg := rfl
@[simp] theorem storeBytes_txbuf_csumResult (i : Nat) (bs : List Byte) : (s.storeBytes .tx i bs).csumResult = s.csumResult := rfl
@[simp] theorem storeBytes_txbuf_txLen (i : Nat) (bs : List Byte) : (s.storeBytes .tx i bs).txLen = s.txLen := rfl
@[simp] theorem storeBytes_txbuf_latch (i : Nat) (bs : List Byte) : (s.storeBytes .tx i bs).latch = s.latch := rfl
@[simp] theorem storeBytes_txbuf_arpReplied (i : Nat) (bs : List Byte) : (s.storeBytes .tx i bs).arpReplied = s.arpReplied := rfl
@[simp] theorem storeBytes_txbuf_matchKind (i : Nat) (bs : List Byte) : (s.storeBytes .tx i bs).matchKind = s.matchKind := rfl
@[simp] theorem storeBytes_txbuf_rx (i : Nat) (bs : List Byte) : (s.storeBytes .tx i bs).rx = s.rx := rfl
@[simp] theorem storeBytes_txbuf_tx (i : Nat) (bs : List Byte) : (s.storeBytes .tx i bs).tx = Memory.writeList s.tx i bs := rfl
@[simp] theorem storeBytes_txbuf_epoch (i : Nat) (bs : List Byte) : (s.storeBytes .tx i bs).epoch = s.epoch := rfl
@[simp] theorem storeBytes_txbuf_engineWait (i : Nat) (bs : List Byte) : (s.storeBytes .tx i bs).engineWait = s.engineWait := rfl
@[simp] theorem storeBytes_txbuf_accepted (i : Nat) (bs : List Byte) : (s.storeBytes .tx i bs).accepted = s.accepted := rfl
@[simp] theorem storeBytes_txbuf_draws (i : Nat) (bs : List Byte) : (s.storeBytes .tx i bs).draws = s.draws := rfl
@[simp] theorem storeBytes_txbuf_hostIn (i : Nat) (bs : List Byte) : (s.storeBytes .tx i bs).hostIn = s.hostIn := rfl
@[simp] theorem storeBytes_txbuf_hostOut (i : Nat) (bs : List Byte) : (s.storeBytes .tx i bs).hostOut = s.hostOut := rfl

/-! ## buildFrame -/

@[simp] theorem buildFrame_params (hdr : List Byte) (n : Nat) : (buildFrame hdr n s).params = s.params := rfl
@[simp] theorem buildFrame_irqEn (hdr : List Byte) (n : Nat) : (buildFrame hdr n s).irqEn = s.irqEn := rfl
@[simp] theorem buildFrame_done (hdr : List Byte) (n : Nat) : (buildFrame hdr n s).done = s.done := rfl
@[simp] theorem buildFrame_haz (hdr : List Byte) (n : Nat) : (buildFrame hdr n s).haz = s.haz := rfl
@[simp] theorem buildFrame_busErr (hdr : List Byte) (n : Nat) : (buildFrame hdr n s).busErr = s.busErr := rfl
@[simp] theorem buildFrame_err (hdr : List Byte) (n : Nat) : (buildFrame hdr n s).err = s.err := rfl
@[simp] theorem buildFrame_lastOp (hdr : List Byte) (n : Nat) : (buildFrame hdr n s).lastOp = s.lastOp := rfl
@[simp] theorem buildFrame_pend (hdr : List Byte) (n : Nat) : (buildFrame hdr n s).pend = s.pend := rfl
@[simp] theorem buildFrame_cfg (hdr : List Byte) (n : Nat) : (buildFrame hdr n s).cfg = s.cfg := rfl
@[simp] theorem buildFrame_csumResult (hdr : List Byte) (n : Nat) : (buildFrame hdr n s).csumResult = s.csumResult := rfl
@[simp] theorem buildFrame_txLen (hdr : List Byte) (n : Nat) : (buildFrame hdr n s).txLen = BitVec.ofNat 16 (max n s.params.minFrame) := rfl
@[simp] theorem buildFrame_latch (hdr : List Byte) (n : Nat) : (buildFrame hdr n s).latch = s.latch := rfl
@[simp] theorem buildFrame_arpReplied (hdr : List Byte) (n : Nat) : (buildFrame hdr n s).arpReplied = s.arpReplied := rfl
@[simp] theorem buildFrame_matchKind (hdr : List Byte) (n : Nat) : (buildFrame hdr n s).matchKind = s.matchKind := rfl
@[simp] theorem buildFrame_rx (hdr : List Byte) (n : Nat) : (buildFrame hdr n s).rx = s.rx := rfl
@[simp] theorem buildFrame_tx (hdr : List Byte) (n : Nat) : (buildFrame hdr n s).tx = Memory.writeList (Memory.writeList s.tx 0 hdr) n (List.replicate (s.params.minFrame - n) 0) := rfl
@[simp] theorem buildFrame_epoch (hdr : List Byte) (n : Nat) : (buildFrame hdr n s).epoch = s.epoch := rfl
@[simp] theorem buildFrame_engineWait (hdr : List Byte) (n : Nat) : (buildFrame hdr n s).engineWait = s.engineWait := rfl
@[simp] theorem buildFrame_accepted (hdr : List Byte) (n : Nat) : (buildFrame hdr n s).accepted = s.accepted := rfl
@[simp] theorem buildFrame_draws (hdr : List Byte) (n : Nat) : (buildFrame hdr n s).draws = s.draws := rfl
@[simp] theorem buildFrame_hostIn (hdr : List Byte) (n : Nat) : (buildFrame hdr n s).hostIn = s.hostIn := rfl
@[simp] theorem buildFrame_hostOut (hdr : List Byte) (n : Nat) : (buildFrame hdr n s).hostOut = s.hostOut := rfl

/-! ## reply -/

@[simp] theorem reply_params (v : HostData) : (reply v s).params = s.params := rfl
@[simp] theorem reply_irqEn (v : HostData) : (reply v s).irqEn = s.irqEn := rfl
@[simp] theorem reply_done (v : HostData) : (reply v s).done = s.done := rfl
@[simp] theorem reply_haz (v : HostData) : (reply v s).haz = s.haz := rfl
@[simp] theorem reply_busErr (v : HostData) : (reply v s).busErr = s.busErr := rfl
@[simp] theorem reply_err (v : HostData) : (reply v s).err = s.err := rfl
@[simp] theorem reply_lastOp (v : HostData) : (reply v s).lastOp = s.lastOp := rfl
@[simp] theorem reply_pend (v : HostData) : (reply v s).pend = s.pend := rfl
@[simp] theorem reply_cfg (v : HostData) : (reply v s).cfg = s.cfg := rfl
@[simp] theorem reply_csumResult (v : HostData) : (reply v s).csumResult = s.csumResult := rfl
@[simp] theorem reply_txLen (v : HostData) : (reply v s).txLen = s.txLen := rfl
@[simp] theorem reply_latch (v : HostData) : (reply v s).latch = s.latch := rfl
@[simp] theorem reply_arpReplied (v : HostData) : (reply v s).arpReplied = s.arpReplied := rfl
@[simp] theorem reply_matchKind (v : HostData) : (reply v s).matchKind = s.matchKind := rfl
@[simp] theorem reply_rx (v : HostData) : (reply v s).rx = s.rx := rfl
@[simp] theorem reply_tx (v : HostData) : (reply v s).tx = s.tx := rfl
@[simp] theorem reply_epoch (v : HostData) : (reply v s).epoch = s.epoch := rfl
@[simp] theorem reply_engineWait (v : HostData) : (reply v s).engineWait = s.engineWait := rfl
@[simp] theorem reply_accepted (v : HostData) : (reply v s).accepted = s.accepted := rfl
@[simp] theorem reply_draws (v : HostData) : (reply v s).draws = s.draws := rfl
@[simp] theorem reply_hostIn (v : HostData) : (reply v s).hostIn = s.hostIn := rfl
@[simp] theorem reply_hostOut (v : HostData) : (reply v s).hostOut = v :: s.hostOut := rfl

/-! ## writeStatus -/

@[simp] theorem writeStatus_params (v : Word) : (writeStatus v s).params = s.params := rfl
@[simp] theorem writeStatus_irqEn (v : Word) : (writeStatus v s).irqEn = s.irqEn := rfl
@[simp] theorem writeStatus_done (v : Word) : (writeStatus v s).done = (s.done && !v.getLsbD 1) := rfl
@[simp] theorem writeStatus_haz (v : Word) : (writeStatus v s).haz = (s.haz && !v.getLsbD 2) := rfl
@[simp] theorem writeStatus_busErr (v : Word) : (writeStatus v s).busErr = (s.busErr && !v.getLsbD 3) := rfl
@[simp] theorem writeStatus_err (v : Word) : (writeStatus v s).err = s.err := rfl
@[simp] theorem writeStatus_lastOp (v : Word) : (writeStatus v s).lastOp = s.lastOp := rfl
@[simp] theorem writeStatus_pend (v : Word) : (writeStatus v s).pend = s.pend := rfl
@[simp] theorem writeStatus_cfg (v : Word) : (writeStatus v s).cfg = s.cfg := rfl
@[simp] theorem writeStatus_csumResult (v : Word) : (writeStatus v s).csumResult = s.csumResult := rfl
@[simp] theorem writeStatus_txLen (v : Word) : (writeStatus v s).txLen = s.txLen := rfl
@[simp] theorem writeStatus_latch (v : Word) : (writeStatus v s).latch = s.latch := rfl
@[simp] theorem writeStatus_arpReplied (v : Word) : (writeStatus v s).arpReplied = s.arpReplied := rfl
@[simp] theorem writeStatus_matchKind (v : Word) : (writeStatus v s).matchKind = s.matchKind := rfl
@[simp] theorem writeStatus_rx (v : Word) : (writeStatus v s).rx = s.rx := rfl
@[simp] theorem writeStatus_tx (v : Word) : (writeStatus v s).tx = s.tx := rfl
@[simp] theorem writeStatus_epoch (v : Word) : (writeStatus v s).epoch = s.epoch := rfl
@[simp] theorem writeStatus_engineWait (v : Word) : (writeStatus v s).engineWait = s.engineWait := rfl
@[simp] theorem writeStatus_accepted (v : Word) : (writeStatus v s).accepted = s.accepted := rfl
@[simp] theorem writeStatus_draws (v : Word) : (writeStatus v s).draws = s.draws := rfl
@[simp] theorem writeStatus_hostIn (v : Word) : (writeStatus v s).hostIn = s.hostIn := rfl
@[simp] theorem writeStatus_hostOut (v : Word) : (writeStatus v s).hostOut = s.hostOut := rfl

@[simp] theorem raiseError_eq_complete (c : ErrCode) : raiseError c s = complete c s := rfl

@[simp] theorem buf_rx : s.buf .rx = s.rx := rfl
@[simp] theorem buf_tx : s.buf .tx = s.tx := rfl

end Sys2Proof.Machine
end

