-- ==== Sys2Proof/Laws/Memory.lean ====
section
/-! SUPPORT. The laws of buffers: a read after a write, the canonical form every write keeps, and what a byte reads
after a list of bytes is stored. -/

namespace Sys2Proof.Machine

/-! ## One byte -/

@[simp] theorem read?_nil (i : Nat) : Memory.read? [] i = none := rfl

/-- Nothing is listed below the first index of a canonical buffer. -/
theorem read?_eq_none_of_risesFrom {m : Memory} {lo i : Nat} (h : Memory.risesFrom lo m = true) (hi : i < lo) :
    Memory.read? m i = none := by
  cases m with
  | nil => rfl
  | cons c m =>
    obtain ⟨k, v⟩ := c
    simp only [Memory.risesFrom, Bool.and_eq_true, decide_eq_true_eq] at h
    have hk : i < k := by omega
    simp [Memory.read?, hk, Nat.ne_of_lt hk]

/-- A read after a write: the byte written at its own index, the old byte elsewhere. It needs no canonical form. -/
theorem read?_write (m : Memory) (i j : Nat) (v : Byte) :
    Memory.read? (Memory.write m i v) j = if j = i then some v else Memory.read? m j := by
  induction m with
  | nil =>
    by_cases h : j = i <;> simp [Memory.write, Memory.read?, h]
  | cons c m ih =>
    obtain ⟨k, w⟩ := c
    simp only [Memory.write]
    by_cases hik : i = k
    · subst hik
      by_cases hj : j = i <;> simp [Memory.read?, hj]
    · by_cases hlt : i < k
      · simp only [hik, hlt, if_true, if_false, Memory.read?]
        by_cases hj : j = i
        · simp [hj]
        · by_cases hji : j < i
          · have h1 : j ≠ k := by omega
            have h2 : j < k := by omega
            simp [hj, hji, h1, h2]
          · simp [hj, hji]
      · simp only [hik, hlt, if_false, Memory.read?, ih]
        by_cases hj : j = i
        · subst hj
          simp [hik, hlt]
        · simp [hj]

/-- A write keeps the canonical form, and its indices start no lower than the old ones and the index written. -/
theorem write_risesFrom {m : Memory} {lo i : Nat} (v : Byte) (h : Memory.risesFrom lo m = true) (hi : lo ≤ i) :
    Memory.risesFrom lo (Memory.write m i v) = true := by
  induction m generalizing lo with
  | nil => simp [Memory.write, Memory.risesFrom, hi]
  | cons c m ih =>
    obtain ⟨k, w⟩ := c
    simp only [Memory.risesFrom, Bool.and_eq_true, decide_eq_true_eq] at h
    simp only [Memory.write]
    by_cases hik : i = k
    · subst hik; simp [Memory.risesFrom, h]
    · by_cases hlt : i < k
      · simp only [hik, hlt, if_true, if_false, Memory.risesFrom, Bool.and_eq_true, decide_eq_true_eq]
        exact ⟨hi, by omega, h.2⟩
      · simp only [hik, hlt, if_false, Memory.risesFrom, Bool.and_eq_true, decide_eq_true_eq]
        exact ⟨h.1, ih h.2 (by omega)⟩

theorem write_wf {m : Memory} (i : Nat) (v : Byte) (h : Memory.wf m = true) : Memory.wf (Memory.write m i v) = true :=
  write_risesFrom v h (Nat.zero_le i)

theorem write_below {m : Memory} {n i : Nat} (v : Byte) (h : Memory.below n m = true) (hi : i < n) :
    Memory.below n (Memory.write m i v) = true := by
  induction m with
  | nil => simp [Memory.write, Memory.below, hi]
  | cons c m ih =>
    obtain ⟨k, w⟩ := c
    simp only [Memory.below, List.all_cons, Bool.and_eq_true, decide_eq_true_eq] at h ih
    simp only [Memory.write]
    split
    · simp [Memory.below, hi, h.2]
    · split
      · simp [Memory.below, hi, h.1, h.2]
      · simp only [Memory.below, List.all_cons, Bool.and_eq_true, decide_eq_true_eq]
        exact ⟨h.1, ih h.2⟩

/-! ## A list of bytes -/

/-- A read after a list of bytes is stored: the byte stored there, or the old byte. -/
theorem read?_writeList (m : Memory) (i j : Nat) (bs : List Byte) :
    Memory.read? (Memory.writeList m i bs) j =
      if i ≤ j ∧ j < i + bs.length then bs[j - i]? else Memory.read? m j := by
  induction bs generalizing m i with
  | nil =>
    have h : ¬ (i ≤ j ∧ j < i + ([] : List Byte).length) := by simp
    rw [if_neg h, Memory.writeList]
  | cons b bs ih =>
    rw [Memory.writeList, ih, read?_write]
    simp only [List.length_cons]
    by_cases hj : j = i
    · subst hj
      have h2 : j ≤ j ∧ j < j + (bs.length + 1) := by omega
      simp [h2]
    · by_cases hin : i + 1 ≤ j ∧ j < i + 1 + bs.length
      · have h2 : i ≤ j ∧ j < i + (bs.length + 1) := by omega
        have h3 : j - i = (j - (i + 1)) + 1 := by omega
        rw [if_pos hin, if_pos h2, h3, List.getElem?_cons_succ]
      · have h2 : ¬ (i ≤ j ∧ j < i + (bs.length + 1)) := by omega
        rw [if_neg hin, if_neg h2, if_neg hj]

theorem writeList_wf {m : Memory} (i : Nat) (bs : List Byte) (h : Memory.wf m = true) :
    Memory.wf (Memory.writeList m i bs) = true := by
  induction bs generalizing m i with
  | nil => exact h
  | cons b bs ih => exact ih (i + 1) (write_wf i b h)

theorem writeList_below {m : Memory} {n i : Nat} {bs : List Byte} (h : Memory.below n m = true)
    (hi : i + bs.length ≤ n) : Memory.below n (Memory.writeList m i bs) = true := by
  induction bs generalizing m i with
  | nil => exact h
  | cons b bs ih =>
    simp only [List.length_cons] at hi
    exact ih (write_below b h (by omega)) (by omega)

/-! ## Bytes of the state's buffers -/

/-- What `storeBytes` does to every byte of both buffers. -/
theorem byteAt_storeBytes (s : State) (b c : BufSel) (i j : Nat) (bs : List Byte) :
    (s.storeBytes b i bs).byteAt c j =
      if c = b ∧ i ≤ j ∧ j < i + bs.length then bs.getD (j - i) 0 else s.byteAt c j := by
  by_cases hin : i ≤ j ∧ j < i + bs.length
  · have hlt : j - i < bs.length := by omega
    cases b <;> cases c <;>
      simp [State.byteAt, read?_writeList, hin, List.getElem?_eq_getElem hlt]
  · cases b <;> cases c <;> simp [State.byteAt, read?_writeList, hin]

/-- A buffer's bytes depend only on its listing and the epoch. -/
theorem byteAt_congr {s t : State} {b : BufSel} (hb : t.buf b = s.buf b) (he : t.epoch = s.epoch) (i : Nat) :
    t.byteAt b i = s.byteAt b i := by
  simp [State.byteAt, hb, he]

/-- What `buildFrame` does to every byte of TXBUF: zeros from `n` to the
minimum frame, the header's bytes below, everything else as before. -/
theorem byteAt_buildFrame (s : State) (hdr : List Byte) (n j : Nat) :
    (buildFrame hdr n s).byteAt .tx j =
      if n ≤ j ∧ j < s.params.minFrame then 0
      else if j < hdr.length then hdr.getD j 0 else s.byteAt .tx j := by
  have e : (buildFrame hdr n s).byteAt .tx j =
      ((s.storeBytes .tx 0 hdr).storeBytes .tx n (List.replicate (s.params.minFrame - n) 0)).byteAt .tx j := rfl
  rw [e, byteAt_storeBytes, byteAt_storeBytes]
  simp only [true_and, List.length_replicate, Nat.zero_le, Nat.zero_add, Nat.sub_zero]
  by_cases hp : n ≤ j ∧ j < s.params.minFrame
  · have h1 : n ≤ j ∧ j < n + (s.params.minFrame - n) := by omega
    have h2 : j - n < s.params.minFrame - n := by omega
    simp [hp, h1, List.getD, h2]
  · have h1 : ¬ (n ≤ j ∧ j < n + (s.params.minFrame - n)) := by omega
    simp [hp, h1]

theorem byteAt_buildFrame_rx (s : State) (hdr : List Byte) (n j : Nat) :
    (buildFrame hdr n s).byteAt .rx j = s.byteAt .rx j := rfl

/-- `byteAt` sees neither a completion nor a reply. -/
@[simp] theorem byteAt_complete (c : ErrCode) (s : State) (b : BufSel) (i : Nat) :
    (complete c s).byteAt b i = s.byteAt b i := by cases b <;> rfl

@[simp] theorem byteAt_softReset (s : State) (b : BufSel) (i : Nat) :
    (softReset s).byteAt b i = s.byteAt b i := by cases b <;> rfl

@[simp] theorem byteAt_hardReset (s : State) (b : BufSel) (i : Nat) :
    (hardReset s).byteAt b i = Config.powerOnByte (s.epoch + 1) b i := by cases b <;> rfl

end Sys2Proof.Machine
end

