-- ==== Sys2Proof/Laws/Frame.lean ====
section
/-! SUPPORT. The laws of wire formats: a big-endian field written and read back, the halves of a MAC register, the
lengths of the headers, and the fields of a buffer that holds a list of bytes. -/

namespace Sys2Proof.Machine

/-! ## Fields split into bytes and put together again -/

theorem join16 (v : Half) : v.extractLsb' 8 8 ++ v.extractLsb' 0 8 = v := by
  apply BitVec.eq_of_toNat_eq
  rw [toNat_append_eq_add, toNat_extract, toNat_extract]
  have := v.isLt
  omega

theorem join32 (v : Word) :
    v.extractLsb' 24 8 ++ v.extractLsb' 16 8 ++ v.extractLsb' 8 8 ++ v.extractLsb' 0 8 = v := by
  apply BitVec.eq_of_toNat_eq
  simp only [toNat_append_eq_add, toNat_extract, Nat.reducePow]
  have := v.isLt
  omega

theorem join48 (v : Mac) :
    v.extractLsb' 40 8 ++ v.extractLsb' 32 8 ++ v.extractLsb' 24 8 ++ v.extractLsb' 16 8 ++ v.extractLsb' 8 8 ++
      v.extractLsb' 0 8 = v := by
  apply BitVec.eq_of_toNat_eq
  simp only [toNat_append_eq_add, toNat_extract, Nat.reducePow]
  have := v.isLt
  omega

/-- A MAC register written with its own value is unchanged. -/
@[simp] theorem ofMac_value (m : MacReg) : MacReg.ofMac m.value = m := by
  obtain ⟨hi, lo⟩ := m
  simp only [MacReg.ofMac, MacReg.value, MacReg.mk.injEq]
  have := hi.isLt
  have := lo.isLt
  constructor <;> apply BitVec.eq_of_toNat_eq <;>
    rw [toNat_extract, toNat_append_eq_add] <;> simp only [Nat.reducePow] <;> omega

/-- The halves of a MAC register written with a value put together give the value. -/
@[simp] theorem value_ofMac (v : Mac) : (MacReg.ofMac v).hi ++ (MacReg.ofMac v).lo = v := by
  apply BitVec.eq_of_toNat_eq
  rw [toNat_append_eq_add]
  simp only [MacReg.ofMac]
  rw [toNat_extract, toNat_extract]
  simp only [Nat.reducePow]
  have := v.isLt
  omega

/-! ## Big-endian fields of a buffer -/

theorem be16At_congr {rd rd' : Nat → Byte} {i : Nat} (h : ∀ k, k < 2 → rd (i + k) = rd' (i + k)) :
    be16At rd i = be16At rd' i := by
  have h0 := h 0 (by omega); have h1 := h 1 (by omega)
  simp only [Nat.add_zero] at h0
  simp only [be16At, h0, h1]

theorem be32At_congr {rd rd' : Nat → Byte} {i : Nat} (h : ∀ k, k < 4 → rd (i + k) = rd' (i + k)) :
    be32At rd i = be32At rd' i := by
  have h0 := h 0 (by omega); have h1 := h 1 (by omega); have h2 := h 2 (by omega); have h3 := h 3 (by omega)
  simp only [Nat.add_zero] at h0
  simp only [be32At, h0, h1, h2, h3]

theorem be48At_congr {rd rd' : Nat → Byte} {i : Nat} (h : ∀ k, k < 6 → rd (i + k) = rd' (i + k)) :
    be48At rd i = be48At rd' i := by
  have h0 := h 0 (by omega); have h1 := h 1 (by omega); have h2 := h 2 (by omega); have h3 := h 3 (by omega)
  have h4 := h 4 (by omega); have h5 := h 5 (by omega)
  simp only [Nat.add_zero] at h0
  simp only [be48At, h0, h1, h2, h3, h4, h5]

/-! ## Headers -/

@[simp] theorem datagramHeaders_length (c : ConfigRegs) (n : Nat) : (datagramHeaders c n).length = 42 := rfl

@[simp] theorem arpReplyBytes_length (l : Latch) (c : ConfigRegs) : (arpReplyBytes l c).length = 42 := rfl

@[simp] theorem datagramIpHeader_length (c : ConfigRegs) (n : Nat) (k : Half) :
    (datagramIpHeader c n k).length = 20 := rfl

/-- The IPv4 header around its checksum field, which stands at an even offset. -/
theorem datagramIpHeader_split (c : ConfigRegs) (n : Nat) : ∃ pre post : List Byte,
    pre.length = 10 ∧ post.length = 8 ∧ ∀ k, datagramIpHeader c n k = pre ++ be16 k ++ post :=
  ⟨[vihl45, 0x00] ++ be16 (BitVec.ofNat 16 (28 + n)) ++ be16 c.ipId ++ be16 0x0000 ++ [ttl64, ipProtoUdp],
    be32 c.localIp ++ be32 c.dstIp, rfl, rfl, fun _ => rfl⟩

/-- Byte `14 + k` of the headers is byte `k` of the IPv4 header. -/
theorem datagramHeaders_ip (c : ConfigRegs) (n k : Nat) (h : k < 20) :
    (datagramHeaders c n)[14 + k]? = (datagramIpHeader c n (datagramChecksum c n))[k]? := by
  have e : datagramHeaders c n = ethHeader c.dstMac.value c.localMac.value etypeIpv4 ++
      (datagramIpHeader c n (datagramChecksum c n) ++
        udpHeader c.localPort c.dstPort (BitVec.ofNat 16 (8 + n))) := by
    rw [datagramHeaders, List.append_assoc]
  have hl : (ethHeader c.dstMac.value c.localMac.value etypeIpv4).length = 14 := rfl
  rw [e, List.getElem?_append_right (by omega), hl, Nat.add_sub_cancel_left, List.getElem?_append_left (by simpa using h)]

end Sys2Proof.Machine
end

