-- ==== Sys2Proof/Laws/Registers.lean ====
section
/-! SUPPORT. What a register read says of the field behind it: 16-bit registers, 48-bit names, the enumerated fields,
and the fields of STATUS. -/

namespace Sys2Proof.Machine

/-! ## 16-bit registers -/

/-- Reading a 16-bit register gives its value as a number. -/
@[simp] theorem toNat_setWidth_word (x : Half) : (x.setWidth 32).toNat = x.toNat := by
  rw [BitVec.toNat_setWidth, Nat.mod_eq_of_lt (Nat.lt_trans x.isLt (by decide))]

/-- Two 16-bit registers read alike exactly when they hold the same value. -/
theorem setWidth_word_inj {x y : Half} : x.setWidth 32 = (y.setWidth 32 : Word) ↔ x = y := by
  rw [← BitVec.toNat_inj, toNat_setWidth_word, toNat_setWidth_word, BitVec.toNat_inj]

/-- Bits [15:0] of a 16-bit register are its value. -/
@[simp] theorem extract_setWidth_word (x : Half) : (x.setWidth 32).extractLsb' 0 16 = x := by
  apply BitVec.eq_of_toNat_eq
  rw [BitVec.extractLsb'_toNat, toNat_setWidth_word, Nat.shiftRight_zero, Nat.mod_eq_of_lt x.isLt]

/-- The two registers of a 48-bit name, after it is written (10_state.md R25). -/
theorem ofMac_words (v : Mac) :
    (MacReg.ofMac v).hi.setWidth 32 ++ (MacReg.ofMac v).lo = v.setWidth 64 := by
  have := v.isLt
  apply BitVec.eq_of_toNat_eq
  rw [toNat_append_eq_add, toNat_setWidth_word, BitVec.toNat_setWidth, MacReg.ofMac, toNat_extract, toNat_extract]
  omega

/-! ## Enumerated fields -/

/-- What RX_CLASS reads (10_state.md R42). -/
theorem rxClass_bits_eq (c : RxClass) :
    (c.bits.setWidth 32 = (0 : Word) ↔ c = .unhandled) ∧ (c.bits.setWidth 32 = (1 : Word) ↔ c = .arp) ∧
    (c.bits.setWidth 32 = (2 : Word) ↔ c = .udp) := by
  cases c <;> decide

/-- RX_CLASS reads alike exactly for the same class. -/
theorem rxClass_bits_inj {c d : RxClass} : c.bits.setWidth 32 = (d.bits.setWidth 32 : Word) ↔ c = d := by
  cases c <;> cases d <;> decide

/-- What MATCH_RESULT reads (10_state.md R47). -/
theorem matchKind_bits_eq (k : MatchKind) :
    (k.bits.setWidth 32 = (0 : Word) ↔ k = .noMatch) ∧ (k.bits.setWidth 32 = (1 : Word) ↔ k = .unicast) ∧
    (k.bits.setWidth 32 = (2 : Word) ↔ k = .multicast) := by
  cases k <;> decide

/-- What a one-bit register reads. -/
theorem flagBit_word_eq (b : Bool) : (flagBit b).setWidth 32 = (1 : Word) ↔ b = true := by
  cases b <;> decide

/-! ## STATUS (10_state.md R28) -/

/-- ERR stands in STATUS[7:4]. -/
theorem statusWord_err (s : State) : (statusWord s).extractLsb' 4 4 = s.err.bits := by
  apply BitVec.eq_of_getLsbD_eq
  intro i hi
  simp only [statusWord, BitVec.getLsbD_extractLsb', BitVec.getLsbD_append, hi, decide_true, Bool.true_and]
  rw [if_neg (by omega), if_neg (by omega), if_neg (by omega), if_neg (by omega), if_pos (by omega)]
  congr 1
  omega

/-- LAST_OP stands in STATUS[11:8]. -/
theorem statusWord_lastOp (s : State) : (statusWord s).extractLsb' 8 4 = s.lastOp := by
  apply BitVec.eq_of_getLsbD_eq
  intro i hi
  simp only [statusWord, BitVec.getLsbD_extractLsb', BitVec.getLsbD_append, hi, decide_true, Bool.true_and]
  rw [if_neg (by omega), if_neg (by omega), if_neg (by omega), if_neg (by omega), if_neg (by omega),
    if_pos (by omega)]
  congr 1
  omega

/-- BUSY, DONE, HAZ and BUSERR stand in STATUS[3:0], from bit 0 up. -/
theorem statusWord_flags (s : State) :
    (statusWord s).getLsbD 0 = s.busy ∧ (statusWord s).getLsbD 1 = s.done ∧ (statusWord s).getLsbD 2 = s.haz ∧
    (statusWord s).getLsbD 3 = s.busErr := by
  have flag : ∀ b, (flagBit b).getLsbD 0 = b := by decide
  refine ⟨?_, ?_, ?_, ?_⟩ <;> simp only [statusWord, BitVec.getLsbD_append, Nat.reduceLT, Nat.reduceSub, if_true,
    if_false, flag]

end Sys2Proof.Machine
end

