-- ==== Sys2Proof/Laws/Step.lean ====
section
/-! SUPPORT. What the machine can do, said once: each command's outcomes, the engine's step, a host write, a host
read, and a step. Later proofs cite these and do not unfold the meanings. -/

namespace Sys2Proof.Machine

/-! ## Commands -/

theorem execNop_eq (n : Nat) (s : State) : exec (.nop n) s = .next (complete .noError s) := rfl

theorem execCsum_range {b : BufSel} {n : Nat} {s : State} (h : s.params.bufBytes < s.cfg.csumOff.toNat + n) :
    exec (.csum b n) s = .next (complete .range s) := by
  simp [exec, execCsum, h]

theorem execCsum_ok {b : BufSel} {n : Nat} {s : State} (h : s.cfg.csumOff.toNat + n ≤ s.params.bufBytes) :
    exec (.csum b n) s =
      .next (complete .noError { s with csumResult := checksumAt s b s.cfg.csumOff.toNat n }) := by
  have h' : ¬ s.cfg.csumOff.toNat + n > s.params.bufBytes := by omega
  simp [exec, execCsum, h']

theorem execEncodeUdp_mtu {n : Nat} {s : State} (h : s.cfg.mtu.toNat < n) :
    exec (.encodeUdp n) s = .next (complete .mtuExceeded s) := by
  simp [exec, execEncodeUdp, h]

theorem execEncodeUdp_range {n : Nat} {s : State} (hm : n ≤ s.cfg.mtu.toNat) (h : s.params.bufBytes < 42 + n) :
    exec (.encodeUdp n) s = .next (complete .range s) := by
  have h1 : ¬ n > s.cfg.mtu.toNat := by omega
  simp [exec, execEncodeUdp, payOff, h, h1]

theorem execEncodeUdp_ok {n : Nat} {s : State} (hm : n ≤ s.cfg.mtu.toNat) (h : 42 + n ≤ s.params.bufBytes) :
    exec (.encodeUdp n) s = .next (complete .noError
      { buildFrame (datagramHeaders s.cfg n) (42 + n) s with csumResult := datagramChecksum s.cfg n }) := by
  have h1 : ¬ n > s.cfg.mtu.toNat := by omega
  have h2 : ¬ 42 + n > s.params.bufBytes := by omega
  simp [exec, execEncodeUdp, payOff, h1, h2]

theorem execDecode_range {n : Nat} {s : State} (h : s.params.bufBytes < n) :
    exec (.decode n) s = .next (complete .range s) := by
  simp [exec, execDecode, h]

theorem execDecode_ok {n : Nat} {s : State} (h : n ≤ s.params.bufBytes) :
    exec (.decode n) s =
      .next (complete .noError { s with latch := decodeFrame (s.byteAt .rx) n s.cfg.rxCap }) := by
  have h' : ¬ n > s.params.bufBytes := by omega
  simp [exec, execDecode, h']

theorem execArpHandle_reply {n : Nat} {s : State} (h : arpRequestMatches s.latch s.cfg.localIp = true) :
    exec (.arpHandle n) s = .next (complete .noError
      { buildFrame (arpReplyBytes s.latch s.cfg) 42 s with arpReplied := true }) := by
  simp [exec, execArpHandle, payOff, h]

theorem execArpHandle_noReply {n : Nat} {s : State} (h : arpRequestMatches s.latch s.cfg.localIp = false) :
    exec (.arpHandle n) s = .next (complete .noError { s with arpReplied := false }) := by
  simp [exec, execArpHandle, h]

theorem execMatchUdp_eq (n : Nat) (s : State) :
    exec (.matchUdp n) s = .next (complete .noError { s with matchKind := matchDestination s.latch s.cfg }) := rfl

/-- Everything a command can do. -/
theorem exec_cases {i : Instr} {s t : State} (h : exec i s = .next t) :
    (∃ n, i = .nop n ∧ t = complete .noError s) ∨
    (∃ b n, i = .csum b n ∧ s.params.bufBytes < s.cfg.csumOff.toNat + n ∧ t = complete .range s) ∨
    (∃ b n, i = .csum b n ∧ s.cfg.csumOff.toNat + n ≤ s.params.bufBytes ∧
      t = complete .noError { s with csumResult := checksumAt s b s.cfg.csumOff.toNat n }) ∨
    (∃ n, i = .encodeUdp n ∧ s.cfg.mtu.toNat < n ∧ t = complete .mtuExceeded s) ∨
    (∃ n, i = .encodeUdp n ∧ n ≤ s.cfg.mtu.toNat ∧ s.params.bufBytes < 42 + n ∧ t = complete .range s) ∨
    (∃ n, i = .encodeUdp n ∧ n ≤ s.cfg.mtu.toNat ∧ 42 + n ≤ s.params.bufBytes ∧
      t = complete .noError
        { buildFrame (datagramHeaders s.cfg n) (42 + n) s with csumResult := datagramChecksum s.cfg n }) ∨
    (∃ n, i = .decode n ∧ s.params.bufBytes < n ∧ t = complete .range s) ∨
    (∃ n, i = .decode n ∧ n ≤ s.params.bufBytes ∧
      t = complete .noError { s with latch := decodeFrame (s.byteAt .rx) n s.cfg.rxCap }) ∨
    (∃ n, i = .arpHandle n ∧ arpRequestMatches s.latch s.cfg.localIp = true ∧
      t = complete .noError { buildFrame (arpReplyBytes s.latch s.cfg) 42 s with arpReplied := true }) ∨
    (∃ n, i = .arpHandle n ∧ arpRequestMatches s.latch s.cfg.localIp = false ∧
      t = complete .noError { s with arpReplied := false }) ∨
    (∃ n, i = .matchUdp n ∧ t = complete .noError { s with matchKind := matchDestination s.latch s.cfg }) := by
  cases i with
  | nop n =>
    rw [execNop_eq] at h; cases h
    exact .inl ⟨n, rfl, rfl⟩
  | csum b n =>
    by_cases hr : s.params.bufBytes < s.cfg.csumOff.toNat + n
    · rw [execCsum_range hr] at h; cases h
      exact .inr <| .inl ⟨b, n, rfl, hr, rfl⟩
    · have hr' : s.cfg.csumOff.toNat + n ≤ s.params.bufBytes := by omega
      rw [execCsum_ok hr'] at h; cases h
      exact .inr <| .inr <| .inl ⟨b, n, rfl, hr', rfl⟩
  | encodeUdp n =>
    by_cases hm : s.cfg.mtu.toNat < n
    · rw [execEncodeUdp_mtu hm] at h; cases h
      exact .inr <| .inr <| .inr <| .inl ⟨n, rfl, hm, rfl⟩
    · have hm' : n ≤ s.cfg.mtu.toNat := by omega
      by_cases hr : s.params.bufBytes < 42 + n
      · rw [execEncodeUdp_range hm' hr] at h; cases h
        exact .inr <| .inr <| .inr <| .inr <| .inl ⟨n, rfl, hm', hr, rfl⟩
      · have hr' : 42 + n ≤ s.params.bufBytes := by omega
        rw [execEncodeUdp_ok hm' hr'] at h; cases h
        exact .inr <| .inr <| .inr <| .inr <| .inr <| .inl ⟨n, rfl, hm', hr', rfl⟩
  | decode n =>
    by_cases hr : s.params.bufBytes < n
    · rw [execDecode_range hr] at h; cases h
      exact .inr <| .inr <| .inr <| .inr <| .inr <| .inr <| .inl ⟨n, rfl, hr, rfl⟩
    · have hr' : n ≤ s.params.bufBytes := by omega
      rw [execDecode_ok hr'] at h; cases h
      exact .inr <| .inr <| .inr <| .inr <| .inr <| .inr <| .inr <| .inl ⟨n, rfl, hr', rfl⟩
  | arpHandle n =>
    cases hm : arpRequestMatches s.latch s.cfg.localIp with
    | true =>
      rw [execArpHandle_reply hm] at h; cases h
      exact .inr <| .inr <| .inr <| .inr <| .inr <| .inr <| .inr <| .inr <| .inl ⟨n, rfl, rfl, rfl⟩
    | false =>
      rw [execArpHandle_noReply hm] at h; cases h
      exact .inr <| .inr <| .inr <| .inr <| .inr <| .inr <| .inr <| .inr <| .inr <| .inl ⟨n, rfl, rfl, rfl⟩
  | matchUdp n =>
    rw [execMatchUdp_eq] at h; cases h
    exact .inr <| .inr <| .inr <| .inr <| .inr <| .inr <| .inr <| .inr <| .inr <| .inr ⟨n, rfl, rfl⟩

/-- Every command answers a next state. -/
theorem exec_next (i : Instr) (s : State) : ∃ t, exec i s = .next t := by
  cases i <;> simp only [exec, execNop, execCsum, execEncodeUdp, execDecode, execArpHandle, execMatchUdp] <;>
    repeat' split
  all_goals exact ⟨_, rfl⟩

/-! ## What no command touches -/

/-- What every command leaves alone, and what every completion writes (44_control.md R162). -/
structure EngineFrame (s t : State) : Prop where
  done : t.done = true
  pend : t.pend = none
  lastOp : t.lastOp = s.lastOp
  haz : t.haz = s.haz
  busErr : t.busErr = s.busErr
  params : t.params = s.params
  epoch : t.epoch = s.epoch
  engineWait : t.engineWait = s.engineWait
  accepted : t.accepted = s.accepted
  draws : t.draws = s.draws
  hostIn : t.hostIn = s.hostIn
  hostOut : t.hostOut = s.hostOut
  irqEn : t.irqEn = s.irqEn
  cfg : t.cfg = s.cfg
  rx : t.rx = s.rx

theorem exec_frame {i : Instr} {s t : State} (h : exec i s = .next t) : EngineFrame s t := by
  rcases exec_cases h with ⟨n, rfl, rfl⟩ | ⟨b, n, rfl, _, rfl⟩ | ⟨b, n, rfl, _, rfl⟩ | ⟨n, rfl, _, rfl⟩ |
    ⟨n, rfl, _, _, rfl⟩ | ⟨n, rfl, _, _, rfl⟩ | ⟨n, rfl, _, rfl⟩ | ⟨n, rfl, _, rfl⟩ | ⟨n, rfl, _, rfl⟩ |
    ⟨n, rfl, _, rfl⟩ | ⟨n, rfl, rfl⟩ <;> constructor <;> simp

theorem engineStep_frame {w : Word} {s t : State} (h : engineStep w s = .next t) : EngineFrame s t := by
  unfold engineStep at h
  split at h
  · exact exec_frame h
  · cases h; constructor <;> rfl

/-- A completion writes STATUS and PEND and nothing else. -/
theorem complete_effect (c : ErrCode) (s : State) : Effect c [] s (complete c s) := by
  refine ⟨⟨rfl, rfl, rfl, rfl, rfl, rfl⟩, ?_, ⟨rfl, rfl, rfl, rfl, rfl, rfl, rfl⟩⟩
  intro r hr
  cases r <;> first | rfl | simp at hr

/-- A register other than CTRL and STATUS reads the same when the fields behind it are the same. -/
theorem readReg_congr {s t : State} {r : Reg} (hr : r ∉ [Reg.ctrl, .status]) (h1 : t.cfg = s.cfg)
    (h2 : t.latch = s.latch) (h3 : t.csumResult = s.csumResult) (h4 : t.txLen = s.txLen)
    (h5 : t.arpReplied = s.arpReplied) (h6 : t.matchKind = s.matchKind) : readReg r t = readReg r s := by
  cases r <;> simp at hr <;> simp [readReg, h1, h2, h3, h4, h5, h6]

/-! ## The engine -/

/-- A due command is PEND, and its delay is over. -/
theorem dueCommand_eq_some {s : State} {w : Word} : dueCommand s = some w ↔ s.engineWait = 0 ∧ s.pend = some w := by
  unfold dueCommand
  split <;> simp [*]

theorem step_of_due {s : State} {w : Word} (hp : s.pend = some w) (hw : s.engineWait = 0) :
    step s = engineStep w s := by
  simp [step, dueCommand, hp, hw]

theorem step_of_not_due {s : State} (h : s.pend = none ∨ s.engineWait ≠ 0) : step s = .next (hostTurn s) := by
  have : dueCommand s = none := by
    unfold dueCommand
    rcases h with h | h <;> simp [h]
  simp [step, this]

/-- Everything a step can do. -/
theorem step_cases {s t : State} (h : step s = .next t) :
    (∃ w, s.pend = some w ∧ s.engineWait = 0 ∧
      ((∃ i, decodeWord w = .ok i ∧ exec i s = .next t) ∨
       (∃ e, decodeWord w = .error e ∧ t = complete .illegalCmd s))) ∨
    ((s.pend = none ∨ s.engineWait ≠ 0) ∧ t = hostTurn s) := by
  cases hp : s.pend with
  | none =>
    rw [step_of_not_due (.inl hp)] at h; cases h
    exact .inr ⟨.inl rfl, rfl⟩
  | some w =>
    by_cases hw : s.engineWait = 0
    · rw [step_of_due hp hw, engineStep] at h
      refine .inl ⟨w, rfl, hw, ?_⟩
      split at h
      · exact .inl ⟨_, ‹_›, h⟩
      · cases h; exact .inr ⟨_, ‹_›, rfl⟩
    · rw [step_of_not_due (.inr hw)] at h; cases h
      exact .inr ⟨.inr hw, rfl⟩

/-! ## Runs -/

theorem runs_zero {s t : State} : Runs 0 s t ↔ s = t := by
  constructor
  · intro h
    exact Host.Outcome.next.inj h
  · rintro rfl
    rfl

/-- A run of one step more is a step and a run. -/
theorem runs_succ {k : Nat} {s t : State} : Runs (k + 1) s t ↔ ∃ u, step s = .next u ∧ Runs k u t := by
  have e : Sys2Proof.core.step s = step s := rfl
  simp only [Runs, Host.Core.run]
  rw [e]
  cases h : step s with
  | next u => simp
  | fault r => cases r
  | refused r => simp

/-! ## The host port -/

/-- A host read changes only what the host has received, the count of draws, and, for an error access, BUSERR. -/
theorem hostRead_shape (a : HostAddr) (n : Width) (s : State) : ∃ v d b,
    hostRead a n s = { s with hostOut := v :: s.hostOut, draws := d, busErr := b } ∧
    (b = s.busErr ∨ (b = true ∧ resolve s.params a n = .error)) := by
  unfold hostRead
  dsimp only
  split
  · exact ⟨_, _, _, rfl, .inr ⟨rfl, ‹_›⟩⟩
  · split
    · exact ⟨_, _, _, rfl, .inl rfl⟩
    · exact ⟨_, _, _, rfl, .inl rfl⟩

/-- Everything a write to a register can do. -/
theorem writeReg_cases (r : Reg) (v : Word) (s : State) :
    (r = .ctrl ∧ v.getLsbD 1 = true ∧ writeReg r v s = softReset s) ∨
    (r = .ctrl ∧ v.getLsbD 1 = false ∧ writeReg r v s = { s with irqEn := v.getLsbD 0 }) ∨
    (r = .status ∧ writeReg r v s = writeStatus v s) ∨
    (r = .cmd ∧ s.pend = none ∧
      writeReg r v s = loadCommand v (Config.engineDelay s.accepted) { s with accepted := s.accepted + 1 }) ∨
    (r.isConfig = true ∧ s.pend = none ∧ writeReg r v s = { s with cfg := writeConfig r v s.cfg }) ∨
    ((r = .cmd ∨ r.isConfig = true) ∧ s.pend ≠ none ∧ writeReg r v s = { s with haz := true }) ∨
    (r ≠ .ctrl ∧ r ≠ .status ∧ r ≠ .cmd ∧ r.isConfig = false ∧ writeReg r v s = s) := by
  by_cases h1 : r = .ctrl
  · cases hv : v.getLsbD 1
    · exact .inr (.inl ⟨h1, rfl, by simp only [writeReg, writeCtrl, h1, hv]; rfl⟩)
    · exact .inl ⟨h1, rfl, by simp only [writeReg, writeCtrl, h1, hv]; rfl⟩
  by_cases h2 : r = .status
  · simp [writeReg, h2]
  by_cases h3 : r = .cmd
  · cases hp : s.pend <;> simp [writeReg, offerCommand, State.busy, h3, hp]
  cases h4 : r.isConfig
  · simp [writeReg, h1, h2, h3, h4]
  · cases hp : s.pend <;> simp [writeReg, State.busy, h1, h2, h3, h4, hp]

/-- A buffer access starts inside the buffer and at a multiple of its width. -/
theorem resolve_bytes {p : Config.Params} {a : HostAddr} {n : Width} {b : BufSel} {i : Nat}
    (h : resolve p a n = .bytes b i) : i < p.bufBytes ∧ i % n.bytes = 0 ∧ i = a.toNat % 0x1000 := by
  have hmod : a.toNat % n.bytes = 0 → a.toNat % 0x1000 % n.bytes = 0 := by
    cases n <;> simp only [Width.bytes] <;> omega
  unfold resolve at h
  split at h
  · cases h
  · rename_i ha
    have ha' : a.toNat % n.bytes = 0 := by simpa using ha
    split at h
    · split at h
      · split at h <;> cases h
      · cases h
    · unfold bufTarget at h
      split at h
      · cases h; exact ⟨‹_›, hmod ha', rfl⟩
      · cases h
    · unfold bufTarget at h
      split at h
      · cases h; exact ⟨‹_›, hmod ha', rfl⟩
      · cases h
    · cases h

theorem lanes_length (v : HostData) : v.lanes.length = v.width.bytes := by cases v <;> rfl

/-- A buffer access ends inside the buffer (20_memory.md R51). -/
theorem resolve_bytes_end {p : Config.Params} (hp : p.Legal) {a : HostAddr} {n : Width} {b : BufSel} {i : Nat}
    (h : resolve p a n = .bytes b i) : i + n.bytes ≤ p.bufBytes := by
  obtain ⟨hlt, hmod, -⟩ := resolve_bytes h
  obtain ⟨-, -, h4, -⟩ := hp
  cases n <;> simp only [Width.bytes] at * <;> omega

/-- Everything a host write can do. -/
theorem hostWrite_cases (a : HostAddr) (v : HostData) (s : State) :
    (resolve s.params a v.width = .error ∧ hostWrite a v s = { s with busErr := true }) ∨
    (resolve s.params a v.width = .reserved ∧ hostWrite a v s = s) ∨
    (∃ r, resolve s.params a v.width = .reg r ∧ hostWrite a v s = writeReg r v.asWord s) ∨
    (∃ b i, resolve s.params a v.width = .bytes b i ∧ s.pend ≠ none ∧ hostWrite a v s = { s with haz := true }) ∨
    (∃ b i, resolve s.params a v.width = .bytes b i ∧ s.pend = none ∧
      hostWrite a v s = s.storeBytes b i v.lanes) := by
  unfold hostWrite
  split
  · simp [*]
  · simp [*]
  · simp [*]
  · rename_i b i hr
    cases hp : s.pend <;> simp [State.busy, hr, hp]

/-- Everything an input can do, `wait` being a read of STATUS that may leave itself at the head of the inputs. -/
theorem performInput_cases (e : Input) (s : State) :
    (∃ a v, e = .write a v ∧ performInput e s = hostWrite a v s) ∨
    (e = .hwReset ∧ performInput e s = hardReset s) ∨
    (∃ es v d b, performInput e s = { s with hostIn := es, hostOut := v :: s.hostOut, draws := d, busErr := b } ∧
      (b = s.busErr ∨ b = true)) := by
  cases e with
  | write a v => exact .inl ⟨a, v, rfl, rfl⟩
  | hwReset => exact .inr (.inl ⟨rfl, rfl⟩)
  | read a n =>
    obtain ⟨v, d, b, h, hb⟩ := hostRead_shape a n s
    exact .inr (.inr ⟨s.hostIn, v, d, b, h, hb.imp_right And.left⟩)
  | wait =>
    right; right
    by_cases hs : s.busy = true
    · obtain ⟨v, d, b, h, hb⟩ := hostRead_shape statusAddr .w32 { s with hostIn := .wait :: s.hostIn }
      refine ⟨.wait :: s.hostIn, v, d, b, ?_, hb.imp_right And.left⟩
      simp only [performInput, hs, if_true]
      exact h
    · obtain ⟨v, d, b, h, hb⟩ := hostRead_shape statusAddr .w32 s
      refine ⟨s.hostIn, v, d, b, ?_, hb.imp_right And.left⟩
      simp only [performInput, hs]
      exact h

/-! ## The register map -/

/-- The map finds every register at its own address. -/
theorem regAt_addr (r : Reg) : regAt r.addr = some r := by cases r <;> decide

/-- A register's address is a multiple of 4 below 0x1000. -/
theorem addr_bounds (r : Reg) : r.addr < 0x1000 ∧ r.addr % 4 = 0 := by cases r <;> decide

/-- A 4-byte access at a register's address reaches it. -/
theorem resolve_addr (p : Config.Params) (r : Reg) : resolve p (BitVec.ofNat 14 r.addr) .w32 = .reg r := by
  obtain ⟨h1, h2⟩ := addr_bounds r
  have h3 : (BitVec.ofNat 14 r.addr).toNat = r.addr := by rw [BitVec.toNat_ofNat]; omega
  have h4 : r.addr / 0x1000 = 0 := by omega
  simp [resolve, h3, h2, h4, Width.bytes, regAt_addr]

/-- A 4-byte host write at a register's address is a write to the register. -/
theorem hostWrite_reg (r : Reg) (v : Word) (s : State) :
    hostWrite (BitVec.ofNat 14 r.addr) (.word v) s = writeReg r v s := by
  unfold hostWrite
  rw [show (HostData.word v).width = .w32 from rfl, resolve_addr]
  rfl

/-- A 4-byte read of a register that is not unspecified gives what the register reads and changes nothing else. -/
theorem hostRead_reg {r : Reg} {s : State} (h : unspecifiedRead s (.reg r) = false) :
    hostRead (BitVec.ofNat 14 r.addr) .w32 s = reply (.word (readReg r s)) s := by
  rw [hostRead, resolve_addr]
  simp [h, targetValue, HostData.ofWord]

/-- No read of STATUS is unspecified: it lies in no write set (20_memory.md R59). -/
theorem unspecifiedRead_status (s : State) : unspecifiedRead s (.reg .status) = false := by
  cases h : s.pend with
  | none => simp [unspecifiedRead, h]
  | some w =>
    simp only [unspecifiedRead, h, inWriteSet]
    split <;> decide

/-- A step whose engine step is not due, with an input to come, performs that input. -/
theorem step_of_input {s : State} {e : Input} {es : List Input} (h : s.pend = none ∨ s.engineWait ≠ 0)
    (hi : s.hostIn = e :: es) :
    step s = .next (performInput e { s with hostIn := es, engineWait := s.engineWait - 1 }) := by
  rw [step_of_not_due h, hostTurn, takeInput]
  simp only [hi]

theorem regAt_eq {a : Nat} {r : Reg} (h : regAt a = some r) : r.addr = a := by
  have := List.find?_some h
  simpa using this

/-- An access that reaches a register is 4 bytes wide, at the register's address. -/
theorem resolve_reg {p : Config.Params} {a : HostAddr} {n : Width} {r : Reg} (h : resolve p a n = .reg r) :
    a.toNat = r.addr ∧ n = .w32 := by
  unfold resolve at h
  split at h
  · cases h
  · split at h
    · split at h
      · split at h
        · rename_i hw _ r' hr
          cases h
          exact ⟨(regAt_eq hr).symm, hw⟩
        · cases h
      · cases h
    · unfold bufTarget at h; split at h <;> cases h
    · unfold bufTarget at h; split at h <;> cases h
    · cases h

theorem isConfig_iff (r : Reg) : r.isConfig = true ↔ 0x010 ≤ r.addr ∧ r.addr ≤ 0x04C := by simp [Reg.isConfig]

/-! ## Inputs while a command is pending -/

/-- What an input that does not reset the block leaves alone while a command is pending (44_control.md R170). -/
structure PendingFrame (s t : State) : Prop where
  params : t.params = s.params
  pend : t.pend = s.pend
  engineWait : t.engineWait = s.engineWait
  lastOp : t.lastOp = s.lastOp
  epoch : t.epoch = s.epoch
  rx : t.rx = s.rx
  tx : t.tx = s.tx
  regs : SameRegs [.ctrl, .status] s t

theorem performInput_pending {e : Input} {s : State} (hp : s.pend ≠ none) (hr : e.resets = false) :
    PendingFrame s (performInput e s) := by
  have mk : ∀ t : State, t.params = s.params → t.pend = s.pend → t.engineWait = s.engineWait → t.lastOp = s.lastOp →
      t.epoch = s.epoch → t.rx = s.rx → t.tx = s.tx → t.cfg = s.cfg → t.latch = s.latch →
      t.csumResult = s.csumResult → t.txLen = s.txLen → t.arpReplied = s.arpReplied → t.matchKind = s.matchKind →
      PendingFrame s t := fun t h1 h2 h3 h4 h5 h6 h7 h8 h9 h10 h11 h12 h13 =>
    ⟨h1, h2, h3, h4, h5, h6, h7, fun _ hr => readReg_congr hr h8 h9 h10 h11 h12 h13⟩
  rcases performInput_cases e s with ⟨a, v, rfl, h⟩ | ⟨rfl, -⟩ | ⟨es, v, d, b, h, -⟩
  · rw [h]
    rcases hostWrite_cases a v s with ⟨-, h⟩ | ⟨-, h⟩ | ⟨r, hres, h⟩ | ⟨b, i, -, -, h⟩ | ⟨b, i, -, h0, -⟩
    · rw [h]; apply mk <;> rfl
    · rw [h]; apply mk <;> rfl
    · rw [h]
      obtain ⟨ha, hw⟩ := resolve_reg hres
      obtain ⟨x, rfl⟩ : ∃ x, v = .word x := by
        cases v <;> simp [HostData.width] at hw
        exact ⟨_, rfl⟩
      rcases writeReg_cases r (HostData.word x).asWord s with ⟨rfl, hv, -⟩ | ⟨rfl, -, h⟩ | ⟨rfl, h⟩ | ⟨-, h0, -⟩ |
        ⟨-, h0, -⟩ | ⟨-, -, h⟩ | ⟨-, -, -, -, h⟩
      · have ha' : a = 0x004 := BitVec.eq_of_toNat_eq ha
        subst ha'
        simp only [Input.resets, HostData.asWord] at hr hv
        rw [hv] at hr
        simp at hr
      · rw [h]; apply mk <;> rfl
      · rw [h]; apply mk <;> rfl
      · exact absurd h0 hp
      · exact absurd h0 hp
      · rw [h]; apply mk <;> rfl
      · rw [h]; apply mk <;> rfl
    · rw [h]; apply mk <;> rfl
    · exact absurd h0 hp
  · simp [Input.resets] at hr
  · rw [h]; apply mk <;> rfl

end Sys2Proof.Machine
end

