-- ==== Sys2Proof/Laws/Codec.lean ====
section
/-! SUPPORT. The laws of the commands that read or build frames: the latch DECODE leaves in each class, the frame
ENCODE_UDP leaves in TXBUF, and the frame ARP_HANDLE leaves there. -/

namespace Sys2Proof.Machine

/-! ## DECODE -/

/-- The latch after a frame of fewer than 14 bytes. -/
theorem decodeFrame_short {rd : Nat → Byte} {len : Nat} (cap : Half) (h : len < 14) :
    decodeFrame rd len cap = Latch.cleared := by
  simp [decodeFrame, ethHdrLen, h]

/-- The latch after an ARP frame. -/
theorem decodeFrame_arp {rd : Nat → Byte} {len : Nat} (cap : Half) (h1 : 42 ≤ len) (h2 : be16At rd 12 = 0x0806) :
    decodeFrame rd len cap =
      { Latch.cleared with
        ethDst := .ofMac (be48At rd 0), ethSrc := .ofMac (be48At rd 6), ethertype := 0x0806,
        arpHrdPro := be16At rd 14 ++ be16At rd 16, arpLenOp := rd 18 ++ rd 19 ++ be16At rd 20,
        arpSha := .ofMac (be48At rd 22), arpSpa := be32At rd 28, arpTha := .ofMac (be48At rd 32),
        arpTpa := be32At rd 38, rxClass := .arp } := by
  unfold decodeFrame
  rw [if_neg (by simp [ethHdrLen]; omega)]
  simp only [h2]
  rw [if_pos (by rfl), decodeArp, if_neg (by simp [payOff]; omega)]

/-- The latch after a UDP frame. -/
theorem decodeFrame_udp {rd : Nat → Byte} {len : Nat} (cap : Half) (h1 : 42 ≤ len) (h2 : be16At rd 12 = 0x0800)
    (h3 : rd 14 = 0x45) (h4 : rd 23 = 17) (h5 : 8 ≤ (be16At rd 38).toNat) (h6 : 34 + (be16At rd 38).toNat ≤ len) :
    decodeFrame rd len cap =
      { Latch.cleared with
        ethDst := .ofMac (be48At rd 0), ethSrc := .ofMac (be48At rd 6), ethertype := 0x0800,
        ipProto := 0x4511, ipTotlen := be16At rd 16, ipSrc := be32At rd 26, ipDst := be32At rd 30,
        udpSport := be16At rd 34, udpDport := be16At rd 36, udpLen := be16At rd 38,
        payLen := BitVec.ofNat 16 (min ((be16At rd 38).toNat - 8) cap.toNat), rxClass := .udp } := by
  unfold decodeFrame
  rw [if_neg (by simp [ethHdrLen]; omega)]
  simp only [h2]
  rw [if_neg (by decide), if_pos (by rfl), decodeIpv4, if_neg (by simp [udpOff]; omega)]
  simp only [h3, h4]
  rw [if_neg (by decide), if_neg (by decide), if_neg (by simp [payOff]; omega), decodeUdp]
  dsimp only
  rw [if_neg (by simp only [udpOff]; omega)]
  rfl

/-! ## ENCODE_UDP -/

/-- The state after an ENCODE_UDP that builds a frame. -/
abbrev encodeUdpDone (n : Nat) (s : State) : State :=
  complete .noError
    { buildFrame (datagramHeaders s.cfg n) (42 + n) s with csumResult := datagramChecksum s.cfg n }

/-- Every byte of TXBUF after ENCODE_UDP. -/
theorem byteAt_encodeUdpDone (n : Nat) (s : State) (j : Nat) :
    (encodeUdpDone n s).byteAt .tx j =
      if 42 + n ≤ j ∧ j < s.params.minFrame then 0
      else if j < 42 then (datagramHeaders s.cfg n).getD j 0 else s.byteAt .tx j := by
  have h := byteAt_buildFrame s (datagramHeaders s.cfg n) (42 + n) j
  rw [datagramHeaders_length] at h
  rw [encodeUdpDone, byteAt_complete, ← h]
  exact byteAt_congr (b := .tx) (by simp [State.buf]) (by simp) j

/-- The 20 bytes from TX[14] after ENCODE_UDP are the IPv4 header with its checksum. -/
theorem sliceAt_encodeUdpDone (n : Nat) (s : State) :
    sliceAt ((encodeUdpDone n s).byteAt .tx) 14 20 = datagramIpHeader s.cfg n (datagramChecksum s.cfg n) := by
  have h := sliceAt_eq_of_getElem? (rd := (encodeUdpDone n s).byteAt .tx) (off := 14)
    (bs := datagramIpHeader s.cfg n (datagramChecksum s.cfg n)) (by
      intro k hk
      rw [datagramIpHeader_length] at hk
      rw [byteAt_encodeUdpDone, if_neg (by omega), if_pos (by omega), ← datagramHeaders_ip _ _ _ hk,
        List.getD_eq_getElem?_getD, List.getElem?_eq_getElem (by simp; omega)]
      rfl)
  rwa [datagramIpHeader_length] at h

/-- TX_LEN after ENCODE_UDP does not wrap. -/
theorem txLen_encodeUdpDone {n : Nat} {s : State} (hl : s.params.Legal) (h : 42 + n ≤ s.params.bufBytes) :
    (encodeUdpDone n s).txLen.toNat = max (42 + n) s.params.minFrame := by
  obtain ⟨-, h4, -, hmin⟩ := hl
  rw [encodeUdpDone, complete_txLen]
  show (buildFrame (datagramHeaders s.cfg n) (42 + n) s).txLen.toNat = _
  rw [buildFrame_txLen, BitVec.toNat_ofNat]
  omega

/-! ## ARP_HANDLE -/

/-- The state after an ARP_HANDLE that builds a reply. -/
abbrev arpReplyDone (s : State) : State :=
  complete .noError { buildFrame (arpReplyBytes s.latch s.cfg) 42 s with arpReplied := true }

/-- Every byte of TXBUF after a reply is built. -/
theorem byteAt_arpReplyDone (s : State) (j : Nat) :
    (arpReplyDone s).byteAt .tx j =
      if 42 ≤ j ∧ j < s.params.minFrame then 0
      else if j < 42 then (arpReplyBytes s.latch s.cfg).getD j 0 else s.byteAt .tx j := by
  have h := byteAt_buildFrame s (arpReplyBytes s.latch s.cfg) 42 j
  rw [arpReplyBytes_length] at h
  rw [arpReplyDone, byteAt_complete, ← h]
  exact byteAt_congr (b := .tx) (by simp [State.buf]) (by simp) j

/-! ## The canonical form of the buffers -/

/-- Storing bytes inside a buffer keeps both buffers canonical and inside P_BUF_BYTES. -/
theorem storeBytes_canonical {s : State} {b c : BufSel} {i : Nat} {bs : List Byte}
    (hw : Memory.wf (s.buf c) = true) (hb : Memory.below s.params.bufBytes (s.buf c) = true)
    (h : i + bs.length ≤ s.params.bufBytes) :
    Memory.wf ((s.storeBytes b i bs).buf c) = true ∧
      Memory.below s.params.bufBytes ((s.storeBytes b i bs).buf c) = true := by
  cases b <;> cases c <;> first
    | exact ⟨hw, hb⟩
    | exact ⟨writeList_wf _ _ hw, writeList_below hb h⟩

/-- Building a frame that fits keeps TXBUF canonical and inside P_BUF_BYTES. -/
theorem buildFrame_canonical {s : State} {hdr : List Byte} {n : Nat} (hl : s.params.Legal)
    (hw : Memory.wf s.tx = true) (hb : Memory.below s.params.bufBytes s.tx = true)
    (h1 : hdr.length ≤ s.params.bufBytes) (h2 : n ≤ s.params.bufBytes) :
    Memory.wf (buildFrame hdr n s).tx = true ∧ Memory.below s.params.bufBytes (buildFrame hdr n s).tx = true := by
  obtain ⟨-, -, -, hmin⟩ := hl
  rw [buildFrame_tx]
  exact ⟨writeList_wf _ _ (writeList_wf _ _ hw),
    writeList_below (writeList_below hb (by omega)) (by rw [List.length_replicate]; omega)⟩

/-- The reset memory is canonical. -/
theorem reset_canonical (p : Config.Params) :
    Memory.wf (State.resetWith p).rx = true ∧ Memory.wf (State.resetWith p).tx = true := ⟨rfl, rfl⟩

end Sys2Proof.Machine
end

