-- ==== Sys2Proof/Laws/PerInstr.lean ====
section
/-! SUPPORT. The laws made per instruction: for each constructor, that its encoding fits the row of
spec/opcode_table.json that bears its mnemonic, and no other row, whatever its operands (30_encoding.md R73). -/

namespace Sys2Proof

/-- A mask that covers no bit of LEN sees nothing of it. -/
theorem encode_and_mask {i j : Instr} {m : Word} (hm : m.extractLsb' 16 16 = 0) (hb : i.bufBit = j.bufBit)
    (ho : i.opcode = j.opcode) : encode i &&& m = encode j &&& m := by
  obtain ⟨i1, i2, i3⟩ := fields_and (encode i) m
  obtain ⟨j1, j2, j3⟩ := fields_and (encode j) m
  apply word_eq_of_fields
  · rw [lenField_and, lenField_and, hm]; simp
  · rw [i3, j3, rsvField_encode, rsvField_encode]
  · rw [i2, j2, bufField_encode, bufField_encode, hb]
  · rw [i1, j1, opField_encode, opField_encode, ho]

/-- Whether an encoding fits a row of the table does not depend on LEN. -/
theorem fits_encode {i j : Instr} (hb : i.bufBit = j.bufBit) (ho : i.opcode = j.opcode) :
    ∀ r ∈ opcodeRows, r.fits (encode i) = r.fits (encode j) := by
  intro r hr
  have hm : r.mask.extractLsb' 16 16 = 0 := by revert r; decide
  rw [OpcodeRow.fits, OpcodeRow.fits, encode_and_mask hm hb ho]

end Sys2Proof

namespace Sys2Proof.Laws.EncodingFitsItsRow

/-- The encoding fits a row of the table exactly when the row bears the command's mnemonic. -/
def Statement (i : Instr) : Prop := ∀ r ∈ opcodeRows, (r.fits (encode i) = true ↔ r.mnemonic = i.mnemonic)

theorem nop (len : Nat) : Statement (.nop len) := by
  intro r hr
  rw [fits_encode (i := .nop len) (j := .nop 0) rfl rfl r hr]
  show _ ↔ r.mnemonic = "NOP"
  revert r
  decide

theorem csum (buf : BufSel) (len : Nat) : Statement (.csum buf len) := by
  intro r hr
  have hb : (Instr.csum buf len).bufBit = (Instr.csum buf 0).bufBit := by cases buf <;> rfl
  rw [fits_encode hb rfl r hr]
  show _ ↔ r.mnemonic = "CSUM"
  revert r
  cases buf <;> decide

theorem encodeUdp (len : Nat) : Statement (.encodeUdp len) := by
  intro r hr
  rw [fits_encode (i := .encodeUdp len) (j := .encodeUdp 0) rfl rfl r hr]
  show _ ↔ r.mnemonic = "ENCODE_UDP"
  revert r
  decide

theorem decode (len : Nat) : Statement (.decode len) := by
  intro r hr
  rw [fits_encode (i := .decode len) (j := .decode 0) rfl rfl r hr]
  show _ ↔ r.mnemonic = "DECODE"
  revert r
  decide

theorem arpHandle (len : Nat) : Statement (.arpHandle len) := by
  intro r hr
  rw [fits_encode (i := .arpHandle len) (j := .arpHandle 0) rfl rfl r hr]
  show _ ↔ r.mnemonic = "ARP_HANDLE"
  revert r
  decide

theorem matchUdp (len : Nat) : Statement (.matchUdp len) := by
  intro r hr
  rw [fits_encode (i := .matchUdp len) (j := .matchUdp 0) rfl rfl r hr]
  show _ ↔ r.mnemonic = "MATCH_UDP"
  revert r
  decide

end Sys2Proof.Laws.EncodingFitsItsRow
end

