-- ==== Sys2Proof/Tests/Slice0.lean ====
section
/-! SUPPORT. The model's own tests. Expected values are the spec's: 95_test_vectors.md (V-…), 30_encoding.md R72 and
R75. Then, for each statement of Obligations.lean that has hypotheses, a witness that something meets them. -/

open Sys2Proof Sys2Proof.Machine

namespace Sys2Proof.Tests

/-! ## WellFormed -/

theorem test_wellFormed_refuses_nop : ¬ WellFormed (.nop 65536) := by decide
theorem test_wellFormed_refuses_csum : ¬ WellFormed (.csum .tx 65536) := by decide
theorem test_wellFormed_refuses_encodeUdp : ¬ WellFormed (.encodeUdp 65536) := by decide
theorem test_wellFormed_refuses_decode : ¬ WellFormed (.decode 65536) := by decide
theorem test_wellFormed_refuses_arpHandle : ¬ WellFormed (.arpHandle 65536) := by decide
theorem test_wellFormed_refuses_matchUdp : ¬ WellFormed (.matchUdp 65536) := by decide
theorem test_wellFormed_takes_65535 : WellFormed (.csum .rx 65535) := by decide

/-! ## Decoding: words written out bit by bit from 30_encoding.md R70 and R72 (LEN, RSV, BUF, OP) -/

theorem test_decode_nop : decodeWord (0b1111111111111111#16 ++ 0b00000000000#11 ++ 0b0#1 ++ 0b0000#4) = .ok (.nop 65535) := by
  decide
theorem test_decode_csum_rx : decodeWord (0b0000000000010100#16 ++ 0b00000000000#11 ++ 0b0#1 ++ 0b0001#4) = .ok (.csum .rx 20) := by
  decide
theorem test_decode_csum_tx : decodeWord (0b0000000000010100#16 ++ 0b00000000000#11 ++ 0b1#1 ++ 0b0001#4) = .ok (.csum .tx 20) := by
  decide
theorem test_decode_encodeUdp : decodeWord (0b0000010111000000#16 ++ 0b00000000000#11 ++ 0b0#1 ++ 0b0010#4) = .ok (.encodeUdp 1472) := by
  decide
theorem test_decode_decode : decodeWord (0b0000000000111100#16 ++ 0b00000000000#11 ++ 0b0#1 ++ 0b0011#4) = .ok (.decode 60) := by
  decide
theorem test_decode_arpHandle : decodeWord (0b0000000000000000#16 ++ 0b00000000000#11 ++ 0b0#1 ++ 0b0100#4) = .ok (.arpHandle 0) := by
  decide
theorem test_decode_matchUdp : decodeWord (0b0000000000000000#16 ++ 0b00000000000#11 ++ 0b0#1 ++ 0b0101#4) = .ok (.matchUdp 0) := by
  decide
/-- V-CT-3 to V-CT-5: every kind of illegal word. -/
theorem test_decode_illegal :
    decodeWord 0x00000007 = .error .reservedOpcode ∧ decodeWord 0x0000000F = .error .reservedOpcode ∧
    decodeWord 0x00000020 = .error .reservedBits ∧ decodeWord 0x00008000 = .error .reservedBits ∧
    decodeWord 0x00000012 = .error .bufNotAllowed ∧ decodeWord 0x00010013 = .error .bufNotAllowed := by decide
theorem test_decodeTableWord : decodeTableWord 32 0x00140011 = some (.csum .tx 20) ∧
    decodeTableWord 16 0x0003 = some (.decode 0) ∧ decodeTableWord 32 0x00000022 = none := by decide
/-- 30_encoding.md R77: IPCSUM.TX and RUN. -/
theorem test_pseudo : Pseudo.expand .ipcsumTx =
    some [.write 0x018 (.word 14), .write 0x00C (.word 0x00140011), .wait] := by decide

/-! ## States of the test vectors -/

/-- The bytes of the PING frame (V-EN-1). -/
def ping : List Byte :=
  [0x02, 0, 0, 0, 0, 0x0b, 0x02, 0, 0, 0, 0, 0x0a, 0x08, 0, 0x45, 0] ++
  [0, 0x20, 0, 0, 0, 0, 0x40, 0x11, 0x66, 0xcb, 0x0a, 0, 0, 0x02, 0x0a, 0] ++
  [0, 0x01, 0x15, 0xb3, 0x15, 0xb3, 0, 0x0c, 0, 0, 0x50, 0x49, 0x4e, 0x47, 0, 0] ++
  [0, 0, 0, 0, 0, 0, 0, 0, 0, 0, 0, 0]

/-- The ARP request of 95_test_vectors.md 2.4. -/
def arpRequest : List Byte :=
  [0xff, 0xff, 0xff, 0xff, 0xff, 0xff, 0x02, 0, 0, 0, 0, 0x0b, 0x08, 0x06, 0, 0x01] ++
  [0x08, 0, 0x06, 0x04, 0, 0x01, 0x02, 0, 0, 0, 0, 0x0b, 0x0a, 0, 0, 0x01] ++
  [0, 0, 0, 0, 0, 0, 0x0a, 0, 0, 0x02, 0, 0, 0, 0, 0, 0] ++
  [0, 0, 0, 0, 0, 0, 0, 0, 0, 0, 0, 0]

/-- The sender's configuration (95_test_vectors.md 2.2). -/
def sender : State :=
  { State.reset with cfg := { ConfigRegs.reset with
      mtu := 1472, localMac := .ofMac 0x02000000000A, localIp := 0x0A000002, localPort := 5555,
      dstMac := .ofMac 0x02000000000B, dstIp := 0x0A000001, dstPort := 5555 } }

/-- The receiver's configuration (95_test_vectors.md 2.3), with `bs` in RXBUF. -/
def receiver (bs : List Byte) : State :=
  { State.reset with cfg := { ConfigRegs.reset with
      rxCap := 1472, localMac := .ofMac 0x02000000000B, localIp := 0x0A000001, localPort := 5555 } }.storeBytes .rx 0 bs

/-- A step gave a next state. -/
def isNext (o : Host.Outcome State Fault Refusal) : Bool :=
  match o with
  | .next _ => true
  | .fault _ => false
  | .refused _ => false

/-- The state a step gives; reset if it gave none. -/
def next (o : Host.Outcome State Fault Refusal) : State :=
  match o with
  | .next t => t
  | .fault _ => State.reset
  | .refused _ => State.reset

theorem eq_next_of_isNext {o : Host.Outcome State Fault Refusal} (h : isNext o = true) : o = .next (next o) := by
  cases o with
  | next t => rfl
  | fault _ => simp [isNext] at h
  | refused _ => simp [isNext] at h

/-- The state after the command word `w` is fetched and stepped in `s`. -/
def after (w : Nat) (s : State) : State := next (step (s.withFetchWord 32 w))

/-! ## One step of each command -/

/-- 44_control.md R165: NOP with LEN = 0xFFFF. -/
theorem test_step_nop : statusWord (after 0xFFFF0000 State.reset) = 0x00000002 := by decide

/-- V-CS-1. -/
theorem test_step_csum_rx :
    let t := after 0x00140001 (receiver [0x45, 0, 0, 0x73, 0, 0, 0x40, 0, 0x40, 0x11, 0, 0, 0xc0, 0xa8, 0, 0x01, 0xc0, 0xa8, 0, 0xc7])
    readReg .csumResult t = 0xB861 ∧ statusWord t = 0x00000102 := by decide

/-- V-CS-10: an odd offset, in TXBUF here. -/
theorem test_step_csum_tx :
    readReg .csumResult (after 0x00040011
      ({ State.reset with cfg := { ConfigRegs.reset with csumOff := 1 } }.storeBytes .tx 0 [0, 0x12, 0x34, 0x56, 0x78]))
      = 0x9753 := by decide

/-- V-EN-1: the PING frame. -/
theorem test_step_encodeUdp :
    let t := after 0x00040002 (sender.storeBytes .tx 42 [0x50, 0x49, 0x4e, 0x47])
    readReg .csumResult t = 0x66CB ∧ readReg .txLen t = 60 ∧ statusWord t = 0x00000202 ∧
    sliceAt (t.byteAt .tx) 0 60 = ping := by decide

/-- V-EN-12: MTU_EXCEEDED comes before RANGE. -/
theorem test_step_encodeUdp_priority : statusWord (after 0x07D70002 sender) = 0x00000222 := by decide

/-- V-DE-1, the fields that a swap would show. -/
theorem test_step_decode_udp :
    let t := after 0x003C0003 (receiver ping)
    [Reg.rxClass, .ethertype, .ethDstHi, .ethDstLo, .ethSrcLo, .ipSrc, .ipDst, .ipProto, .ipTotlen, .udpSport, .udpLen,
     .payLen].map (readReg · t) = [2, 0x0800, 0x0200, 0x0000000B, 0x0000000A, 0x0A000002, 0x0A000001, 0x4511, 0x0020,
     0x15B3, 0x000C, 4] := by decide

/-- V-DE-15. -/
theorem test_step_decode_arp :
    let t := after 0x003C0003 (receiver arpRequest)
    [Reg.rxClass, .ethertype, .ethDstLo, .arpHrdPro, .arpLenOp, .arpShaHi, .arpShaLo, .arpSpa, .arpThaLo, .arpTpa].map
      (readReg · t) = [1, 0x0806, 0xFFFFFFFF, 0x00010800, 0x06040001, 0x0200, 0x0000000B, 0x0A000001, 0, 0x0A000002] := by
  decide

/-- The sender with the ARP request decoded. -/
def arpLatched : State := after 0x003C0003 (sender.storeBytes .rx 0 arpRequest)

/-- V-ARP-1, the reply's first 42 bytes. -/
theorem test_step_arpHandle :
    let t := after 0x00000004 arpLatched
    statusWord t = 0x00000402 ∧ readReg .arpResult t = 1 ∧ readReg .txLen t = 60 ∧
    sliceAt (t.byteAt .tx) 0 42 =
      [0x02, 0, 0, 0, 0, 0x0b, 0x02, 0, 0, 0, 0, 0x0a, 0x08, 0x06, 0, 0x01] ++
      [0x08, 0, 0x06, 0x04, 0, 0x02, 0x02, 0, 0, 0, 0, 0x0a, 0x0a, 0, 0, 0x02] ++
      [0x02, 0, 0, 0, 0, 0x0b, 0x0a, 0, 0, 0x01] := by decide

/-- V-ARP-7: no reply to a UDP frame. -/
theorem test_step_arpHandle_none :
    let t := after 0x00000004 (after 0x003C0003 (receiver ping))
    readReg .arpResult t = 0 ∧ t.txLen = 0 ∧ t.tx = [] := by decide

/-- The receiver with PING decoded. -/
def pingLatched : State := after 0x003C0003 (receiver ping)

/-- V-MA-1: unicast. -/
theorem test_step_matchUdp_unicast :
    statusWord (after 0x00000005 pingLatched) = 0x00000502 ∧
    readReg .matchResult (after 0x00000005 pingLatched) = 1 := by decide

/-- 43_rx_filter.md R151: the multicast group, another port locally. -/
theorem test_step_matchUdp_multicast :
    readReg .matchResult (after 0x00000005
      { pingLatched with cfg := { pingLatched.cfg with
          localPort := 7, mcastEn := true, mcastIp := 0x0A000001, mcastPort := 5555 } }) = 2 := by decide

/-- V-CT-5: an illegal word is not performed, even in part. -/
theorem test_step_illegal : statusWord (after 0x00000022 State.reset) = 0x00000212 ∧ (after 0x00000022 State.reset).tx = [] := by
  decide

/-! ## The host port -/

/-- V-CT-6, V-CT-7: error accesses. -/
theorem test_host_error :
    (hostRead 0x0008 .w16 State.reset).hostOut = [.half 0] ∧ statusWord (hostRead 0x0008 .w16 State.reset) = 0x8 ∧
    hostWrite 0x1800 (.byte 5) State.reset = { State.reset with busErr := true } := by decide

/-- V-CT-10, V-CT-11. -/
theorem test_host_registers :
    (hostRead 0x00C0 .w32 State.reset).hostOut = [.word 0x2A] ∧ (hostRead 0x003C .w32 State.reset).hostOut = [.word 0] ∧
    (hostRead 0x0010 .w32 (hostWrite 0x0010 (.word 0x12345678) State.reset)).hostOut = [.word 0x5678] := by decide

/-- V-EN-1's staging: `wr16 0x202A, 0x4950`. -/
theorem test_host_lanes : (hostWrite 0x202A (.half 0x4950) State.reset).tx = [(42, 0x50), (43, 0x49)] := by decide

/-- V-CT-12: IRQ. -/
theorem test_host_irq :
    (after 0 (hostWrite 0x0004 (.word 1) State.reset)).irq = true ∧
    (hostWrite 0x0008 (.word 2) (after 0 (hostWrite 0x0004 (.word 1) State.reset))).irq = false := by decide

/-- Memory keeps its canonical form whatever the order of writes. -/
theorem test_memory_canonical : Memory.write (Memory.write [] 5 1) 3 2 = Memory.write (Memory.write [] 3 2) 5 1 := by decide

/-! ## Witnesses -/

/-- A busy sender whose engine step is due. -/
def due : State := sender.withFetchWord 32 0x00040002

/-- A busy sender with two host turns before its step, then a reset. -/
def waiting : State := { due with engineWait := 2, hostIn := [.read 0x080 .w32, .wait, .hwReset] }

theorem witness_DecodeOfEncode : WellFormed (.csum .tx 65535) ∧ WellFormed (.matchUdp 0) := by decide

theorem witness_EncodeOfDecode :
    decodeWord 0xFFFF0011 = .ok (.csum .tx 65535) ∧ decodeWord 0x00000000 = .ok (.nop 0) := by decide

/-- A legal word at the top of the opcodes, one with BUF set, and the three kinds of illegal word, due. -/
theorem witness_LegalCommandWords :
    (∃ i, decodeWord 0xFFFF0005 = .ok i) ∧ (∃ i, decodeWord 0x00000011 = .ok i) ∧
    (∀ w ∈ [0x00000006, 0x00000020, 0x00008000, 0x00000012],
      (sender.withFetchWord 32 w).pend = some (BitVec.ofNat 32 w) ∧ (sender.withFetchWord 32 w).engineWait = 0 ∧
      decodeTableWord 32 w = none) ∧
    (0xFFFF0005#32).extractLsb' 0 16 = (0x00000005#32).extractLsb' 0 16 :=
  ⟨⟨.matchUdp 65535, by decide⟩, ⟨.csum .tx 0, by decide⟩, by decide, by decide⟩

theorem witness_OpcodeRowsDisjoint :
    (opcodeRows.filter (·.fits 0xFFFF0011)).map OpcodeRow.mnemonic = ["CSUM"] := by decide

theorem witness_AssemblerWords :
    assemble (.csumTx 65535) = some 0xFFFF0011 ∧ assemble (.decode 0) = some 0x00000003 ∧
    assemble (.encodeUdp 65536) = none := by decide

theorem witness_StepRunsDecodedCommand :
    due.pend = some 0x00040002 ∧ due.engineWait = 0 ∧ decodeWord 0x00040002 = .ok (.encodeUdp 4) := by decide

/-- A word illegal in each of the three ways. -/
theorem witness_IllegalWordCompletes :
    (let s := sender.withFetchWord 32 0x00000006
     s.pend = some 0x00000006 ∧ s.engineWait = 0 ∧ s.lastOp = (0x00000006#32).extractLsb' 0 4 ∧
     0x6#4 ≤ (0x00000006#32).extractLsb' 0 4 ∧ s.haz = false ∧ s.busErr = false) ∧
    (let s := sender.withFetchWord 32 0x00000020
     s.pend = some 0x00000020 ∧ s.engineWait = 0 ∧ s.lastOp = (0x00000020#32).extractLsb' 0 4 ∧
     (0x00000020#32).extractLsb' 5 11 ≠ 0) ∧
    (let s := sender.withFetchWord 32 0x00000010
     s.pend = some 0x00000010 ∧ s.engineWait = 0 ∧ s.lastOp = (0x00000010#32).extractLsb' 0 4 ∧
     (0x00000010#32).getLsbD 4 = true ∧ (0x00000010#32).extractLsb' 0 4 ≠ 0x1) := by decide

theorem witness_IdleHoldsState : sender.pend = none ∧ sender.hostIn = [] ∧ sender.engineWait = 0 := by decide

/-- An idle block and a block that waits, each with an input, a block that waits with none, and one that is busy. -/
theorem witness_HostTurnPerformsNextInput :
    (let s : State := { sender with hostIn := [.wait, .hwReset] }
     s.pend = none ∧ s.hostIn = .wait :: [.hwReset]) ∧
    (waiting.engineWait ≠ 0 ∧ waiting.hostIn = .read 0x080 .w32 :: [.wait, .hwReset]) ∧
    (let s : State := { waiting with hostIn := [] }
     s.engineWait ≠ 0 ∧ s.hostIn = []) ∧
    waiting.pend ≠ none := by decide

/-- The reset stands just past the host turns that come before the step. -/
theorem witness_OperandsStableWhilePending :
    waiting.pend = some 0x00040002 ∧ waiting.hostIn.length = waiting.engineWait + 1 ∧
    ∀ e ∈ waiting.hostIn.take waiting.engineWait, Input.resets e = false := by decide

theorem witness_PendingCommandCompletes :
    due.pend = some 0x00040002 ∧ ∀ e ∈ due.hostIn.take due.engineWait, Input.resets e = false := by decide

theorem witness_CommandAcceptance : due.pend ≠ none ∧ sender.pend = none := by decide

theorem witness_WritesWhileBusy :
    due.pend ≠ none ∧ Reg.mtu.addr = 0x010 ∧ Reg.dstPort.addr = 0x04C ∧ Reg.csumResult.addr = 0x080 ∧
    resolve due.params 0x17FC .w32 = .bytes .rx 2044 ∧ resolve due.params 0x27FF .w8 = .bytes .tx 2047 ∧
    regAt 0x050 = none ∧ regAt 0xFFC = none := by decide

theorem witness_ConfigWriteReadsBack : sender.pend = none ∧ Reg.mtu.addr = 0x010 ∧ Reg.dstPort.addr = 0x04C := by decide

theorem witness_ReservedRegistersReadZero :
    (0x03C#14).toNat % 4 = 0 ∧ regAt 0x03C = none ∧ regAt 0x0EC = none ∧
    (0xFFC#14).toNat < 0x1000 ∧ (0xFFC#14).toNat % 4 = 0 ∧ regAt 0xFFC = none := by decide

/-- The lowest unlisted bit of each group of registers. -/
theorem witness_UnlistedBitsReadZero :
    ¬ 12 ≤ 11 ∧ Reg.payOff ∈ [Reg.payLen, .payOff] ∧ (readReg .payOff State.reset).getLsbD 5 = true ∧
    (readReg .status (after 0xF State.reset)).getLsbD 11 = true := by decide

/-- The smallest and the largest buffers, and the last index of each width. -/
theorem witness_BufferAccessIsLittleEndian :
    (⟨64, 0⟩ : Config.Params).Legal ∧ (⟨4096, 4096⟩ : Config.Params).Legal ∧ sender.params.Legal ∧ sender.pend = none ∧
    0 < sender.params.bufBytes ∧ 0 % Width.w32.bytes = 0 ∧
    2044 < sender.params.bufBytes ∧ 2044 % (HostData.word 0).width.bytes = 0 ∧
    2046 < sender.params.bufBytes ∧ 2046 % Width.w16.bytes = 0 ∧
    2047 < sender.params.bufBytes ∧ 2047 % (HostData.byte 0).width.bytes = 0 := by decide

theorem witness_MixedWidthRead :
    let s := State.reset.storeBytes .tx 0 ping
    s.params.Legal ∧ s.pend = none ∧ be16At (s.byteAt .tx) 12 = 0x0800 := by decide

/-- Each of the four kinds of error access at its boundary, and the legal accesses next to them. -/
theorem witness_ErrorAccessOnlySetsBusErr :
    ErrorAccess sender.params 0x1001 .w16 ∧ ErrorAccess sender.params 0x008 .w16 ∧
    ErrorAccess sender.params 0x3000 .w8 ∧ ErrorAccess sender.params 0x1800 .w8 ∧
    ¬ ErrorAccess sender.params 0x17FF .w8 ∧ ¬ ErrorAccess sender.params 0x2000 .w32 ∧
    ¬ ErrorAccess sender.params 0xFFC .w32 ∧ sender.busErr = false := by
  unfold ErrorAccess
  decide

theorem witness_ReadsHaveNoSideEffect :
    ¬ ErrorAccess due.params 0x27FC .w32 ∧ ¬ ErrorAccess due.params 0x000 .w32 ∧ sender.pend = none := by
  unfold ErrorAccess
  decide

/-- A register and a buffer byte inside the write set of the pending command, and one of each outside it. -/
theorem witness_ReadsWhileBusy :
    due.pend = some 0x00040002 ∧ Reg.txLen ∈ writeSet ((0x00040002#32).extractLsb' 0 4) ∧
    Reg.rxClass ∉ writeSet ((0x00040002#32).extractLsb' 0 4) ∧ resolve due.params 0x2000 .w8 = .bytes .tx 0 ∧
    resolve due.params 0x17FC .w32 = .bytes .rx 2044 := by decide

theorem witness_CtrlWriteSetsIrqEnable : (0xFFFFFFFD#32).getLsbD 1 = false ∧ (0x00000001#32).getLsbD 1 = false := by decide

/-- A completion with IRQ_EN set, an idle block, an acknowledgment, and a write that sets IRQ_EN while DONE is 1. -/
theorem witness_InterruptFollowsDone :
    due.pend = some 0x00040002 ∧ due.engineWait = 0 ∧ step due = .next (next (step due)) ∧
    sender.pend = none ∧ (0x00000002#32).getLsbD 1 = true ∧ (after 0 sender).done = true ∧
    (0x00000001#32).getLsbD 0 = true ∧ (0x00000001#32).getLsbD 1 = false ∧
    (performInput (.write 0x004 (.word 1)) (after 0 sender)).irq = true :=
  ⟨by decide, by decide, eq_next_of_isNext (by decide), by decide⟩

theorem witness_SoftResetKeepsBuffers : (0x00000003#32).getLsbD 1 = true ∧ (0x00000002#32).getLsbD 1 = true := by decide

/-- One state for each code a command can report. -/
theorem witness_ErrorChangesOnlyStatus :
    (next (exec (.decode 2049) sender)).err = .range ∧ (next (exec (.encodeUdp 1473) sender)).err = .mtuExceeded ∧
    exec (.decode 2049) sender = .next (next (exec (.decode 2049) sender)) :=
  ⟨by decide, by decide, eq_next_of_isNext (by decide)⟩

/-- Each cause at its boundary, and the last operand without it. -/
theorem witness_ErrorCodesAndCauses :
    statusCode (next (exec (.csum .rx 2049) sender)) = 3 ∧ statusCode (next (exec (.encodeUdp 1472) sender)) = 0 ∧
    statusCode (next (exec (.encodeUdp 1473) sender)) = 2 ∧
    statusCode (next (exec (.encodeUdp 2007) { sender with cfg := { sender.cfg with mtu := 2007 } })) = 3 ∧
    statusCode (next (exec (.decode 2049) sender)) = 3 ∧ statusCode (next (exec (.decode 0) sender)) = 0 := by decide

/-- Each write that the statement names does happen. -/
theorem witness_OnlyTheNamedCommandsWrite :
    (next (exec (.encodeUdp 0) sender)).tx ≠ sender.tx ∧ (next (exec (.arpHandle 0) arpLatched)).txLen ≠ arpLatched.txLen ∧
    (next (exec (.decode 60) (receiver ping))).latch ≠ (receiver ping).latch ∧
    (next (exec (.csum .rx 0) sender)).csumResult ≠ sender.csumResult ∧
    (next (exec (.arpHandle 0) arpLatched)).arpReplied ≠ arpLatched.arpReplied ∧
    (next (exec (.matchUdp 0) pingLatched)).matchKind ≠ pingLatched.matchKind := by decide

/-- A slice that ends at the buffer's end, and one that passes it by a byte. -/
theorem witness_CsumResult :
    let s : State := { sender with cfg := { sender.cfg with csumOff := 2048 } }
    s.params.Legal ∧ (readReg .csumOff s).toNat + 0 ≤ s.params.bufBytes ∧
    s.params.bufBytes < (readReg .csumOff s).toNat + 1 := by decide

theorem witness_ChecksumSumNeverWraps : (List.replicate 65535 (0xFF : Byte)).length ≤ 65535 := by
  rw [List.length_replicate]

theorem witness_ChecksumFoldsAtMostTwice :
    (ping ++ arpRequest).length ≤ 65535 ∧ (foldOnce 0x1FFFF).toNat = 0x10000 ∧ (foldCarries 2 0x1FFFF).toNat = 1 := by decide

theorem witness_ChecksumResultLaw : ([] : List Byte).length ≤ 65535 ∧ checksumOf [] = 0xFFFF ∧ checksumOf [0xFF, 0xFF] = 0 := by
  decide

theorem witness_ChecksumVerificationLaw :
    (List.replicate 65532 (0 : Byte)).length % 2 = 0 ∧ ([] : List Byte).length % 2 = 0 ∧
    (List.replicate 65532 (0 : Byte)).length + 2 + ([] : List Byte).length ≤ 65535 := by
  rw [List.length_replicate]
  decide

theorem witness_ChecksumByteSwapLaw : (List.replicate 65534 (1 : Byte)).length % 2 = 0 ∧
    (List.replicate 65534 (1 : Byte)).length ≤ 65535 := by
  rw [List.length_replicate]
  decide

/-- A payload of MTU bytes that fills the buffer, and one with padding: index 59 is padding, 60 is not. -/
theorem witness_EncodeUdpResult :
    let s : State := { sender with cfg := { sender.cfg with mtu := 2006 } }
    s.params.Legal ∧ 2006 ≤ (readReg .mtu s).toNat ∧ 42 + 2006 ≤ s.params.bufBytes ∧
    42 + 17 ≤ 59 ∧ 59 < s.params.minFrame ∧ max (42 + 17) s.params.minFrame ≤ 60 := by decide

theorem witness_EncodeUdpResult_errors :
    (readReg .mtu sender).toNat < 1473 ∧
    (let s : State := { sender with cfg := { sender.cfg with mtu := 2007 } }
     2007 ≤ (readReg .mtu s).toNat ∧ s.params.bufBytes < 42 + 2007) := by decide

theorem witness_EncodedHeaderVerifies :
    State.reset.params.Legal ∧ 0 ≤ (readReg .mtu State.reset).toNat ∧ 42 + 0 ≤ State.reset.params.bufBytes := by decide

/-- Two blocks that differ in every buffer byte the payload does not cover. -/
theorem witness_EncodeUdpIgnoresBufferContents :
    let s := sender.storeBytes .tx 0 (List.replicate 42 1 ++ [7])
    let u := sender.storeBytes .tx 0 (List.replicate 42 2 ++ [7])
    s.params = u.params ∧ s.params.Legal ∧ (∀ r ∈ encodeOperands, readReg r s = readReg r u) ∧
    1 ≤ (readReg .mtu s).toNat ∧ 1 ≤ (readReg .mtu u).toNat ∧ 42 + 1 ≤ s.params.bufBytes ∧
    s.tx ≠ u.tx ∧ s.byteAt .tx 42 = u.byteAt .tx 42 := by decide

theorem witness_DecodeCompletes : 2048 ≤ sender.params.bufBytes ∧ sender.params.bufBytes < 2049 := by decide

/-- The shortest UDP frame, and PING cut where its datagram ends. -/
theorem witness_DecodeUdpFrame :
    UdpFrame ((receiver ping).byteAt .rx) 46 ∧ 46 ≤ (receiver ping).params.bufBytes ∧
    UdpFrame (((receiver ping).storeBytes .rx 39 [8]).byteAt .rx) 42 := by
  unfold UdpFrame
  decide

theorem witness_DecodeArpFrame :
    ArpFrame ((receiver arpRequest).byteAt .rx) 42 ∧ 42 ≤ (receiver arpRequest).params.bufBytes := by
  unfold ArpFrame
  decide

/-- A short frame, one with only its Ethernet header, one with its IPv4 header, one with its UDP header, a short ARP
frame, and one that is not UDP. -/
theorem witness_DecodeUnhandledFrame :
    (∀ len ∈ [13, 14, 33, 34, 41, 42, 45], len ≤ (receiver ping).params.bufBytes ∧
      ¬ UdpFrame ((receiver ping).byteAt .rx) len ∧ ¬ ArpFrame ((receiver ping).byteAt .rx) len) ∧
    (¬ UdpFrame ((receiver arpRequest).byteAt .rx) 41 ∧ ¬ ArpFrame ((receiver arpRequest).byteAt .rx) 41) ∧
    (¬ UdpFrame (((receiver ping).storeBytes .rx 23 [6]).byteAt .rx) 60 ∧
      ¬ ArpFrame (((receiver ping).storeBytes .rx 23 [6]).byteAt .rx) 60) := by
  unfold UdpFrame ArpFrame
  decide

/-- Two blocks whose RXBUF differ right after the frame, with different latches. -/
theorem witness_DecodeDependsOnlyOnTheFrame :
    let s := (receiver ping).storeBytes .rx 60 [1]
    let u := pingLatched.storeBytes .rx 60 [2]
    s.params = u.params ∧ readReg .rxCap s = readReg .rxCap u ∧ 60 ≤ s.params.bufBytes ∧
    (∀ i, i < 60 → s.byteAt .rx i = u.byteAt .rx i) ∧ s.latch ≠ u.latch ∧ s.rx ≠ u.rx := by decide

/-- The frame ENCODE_UDP 0 builds, copied to another block. -/
theorem witness_EncodeDecodeRoundTrip :
    let t := next (exec (.encodeUdp 0) sender)
    let u := receiver (sliceAt (t.byteAt .tx) 0 60)
    sender.params.Legal ∧ 0 ≤ (readReg .mtu sender).toNat ∧ 42 + 0 ≤ sender.params.bufBytes ∧
    exec (.encodeUdp 0) sender = .next t ∧ u.params = sender.params ∧ 0 ≤ (readReg .rxCap u).toNat ∧
    (∀ i, i < (readReg .txLen t).toNat → u.byteAt .rx i = t.byteAt .tx i) :=
  ⟨by decide, by decide, by decide, eq_next_of_isNext (by decide), by decide, by decide, by decide⟩

theorem witness_ArpHandleResult : RequestForUs arpLatched ∧ arpLatched.params.Legal := by
  unfold RequestForUs
  decide

/-- No latched ARP packet, and an ARP reply instead of a request. -/
theorem witness_ArpHandleResult_noReply :
    ¬ RequestForUs pingLatched ∧
    ¬ RequestForUs { arpLatched with latch := { arpLatched.latch with arpLenOp := 0x06040002 } } := by
  unfold RequestForUs
  decide

/-- Two blocks with the same latch, one of them with another RXBUF and a reply already built. -/
theorem witness_ArpHandleReadsOnlyItsOperands :
    let u := after 0x00000004 (arpLatched.storeBytes .rx 0 ping)
    arpLatched.params = u.params ∧ arpLatched.params.Legal ∧
    (∀ r ∈ arpOperands, readReg r arpLatched = readReg r u) ∧ arpLatched.rx ≠ u.rx ∧
    readReg .arpResult (next (exec (.arpHandle 0) arpLatched)) = 1 ∧ readReg .rxClass State.reset ≠ 1 := by decide

theorem witness_ArpReplyDecodesSwapped :
    let t := next (exec (.arpHandle 0) arpLatched)
    let u := receiver (sliceAt (t.byteAt .tx) 0 60)
    RequestForUs arpLatched ∧ arpLatched.params.Legal ∧ exec (.arpHandle 0) arpLatched = .next t ∧
    u.params = arpLatched.params ∧ (∀ i, i < (readReg .txLen t).toNat → u.byteAt .rx i = t.byteAt .tx i) :=
  ⟨witness_ArpHandleResult.1, witness_ArpHandleResult.2, eq_next_of_isNext (by decide), by decide, by decide⟩

/-- A busy block that meets the invariant, and steps. -/
theorem witness_StepKeepsInvariant : waiting.Inv ∧ step waiting = .next (hostTurn waiting) := by
  refine ⟨⟨by decide, by decide, by decide, ?_, ?_, by decide, ?_⟩, step_of_not_due (.inr (by decide))⟩
  · intro w hw
    cases hw
    decide
  · intro hw
    cases hw
  · exact ⟨rfl, rfl, rfl, rfl, rfl, rfl, rfl⟩

theorem witness_InvariantAtReset : (⟨64, 64⟩ : Config.Params).Legal ∧ (⟨4096, 0⟩ : Config.Params).Legal := by decide

/-- A DECODE that is due, and a soft reset as the next input. -/
theorem witness_LatchChangesOnlyByDecodeOrReset :
    (let s := (receiver ping).withFetchWord 32 0x003C0003
     step s = .next (next (step s)) ∧ (next (step s)).latch ≠ s.latch) ∧
    (let s := { pingLatched with hostIn := [.write 0x004 (.word 2)] }
     step s = .next (next (step s)) ∧ (next (step s)).latch ≠ s.latch) :=
  ⟨⟨eq_next_of_isNext (by decide), by decide⟩, ⟨eq_next_of_isNext (by decide), by decide⟩⟩

/-- The first byte of RXBUF overwritten by the host. -/
theorem witness_RxBufChangesOnlyByHost :
    let s := { receiver ping with hostIn := [.write 0x1000 (.byte 7)] }
    step s = .next (next (step s)) ∧ (next (step s)).byteAt .rx 0 ≠ s.byteAt .rx 0 :=
  ⟨eq_next_of_isNext (by decide), by decide⟩

theorem witness_ParametersNeverChange : step due = .next (next (step due)) := eq_next_of_isNext (by decide)

/-- A command that stays pending, one that is done, and one that a reset discards. -/
theorem witness_OneCommandAtATime :
    waiting.pend = some 0x00040002 ∧ (next (step waiting)).pend = some 0x00040002 ∧ (next (step due)).pend = none ∧
    (next (step { waiting with hostIn := [.hwReset] })).pend = none := by decide

/-- The engine's step is due with both bits set, and a write to STATUS that clears neither. -/
theorem witness_StickyBitsStay :
    let s : State := { due with haz := true, busErr := true }
    s.pend = some 0x00040002 ∧ s.engineWait = 0 ∧ step s = .next (next (step s)) ∧
    Input.resets (.write 0x008 (.word 0x2)) = false ∧ (0x2#32).getLsbD 2 = false ∧ (0x2#32).getLsbD 3 = false :=
  ⟨by decide, by decide, eq_next_of_isNext (by decide), by decide⟩

end Sys2Proof.Tests
end

section
/-! PROOF. 60_exceptions.md R180: a command that ends with an error has no effect but its completion. -/

namespace Sys2Proof
open Machine

/-- The two ways a command ends: without an error, or, on each of the four error paths, with nothing done but the
completion (00_scope.md R11). -/
theorem exec_noError_or_complete {i : Instr} {s t : State} (h : exec i s = .next t) :
    t.err = .noError ∨ t = complete t.err s := by
  rcases exec_cases h with ⟨_, -, rfl⟩ | ⟨_, _, -, -, rfl⟩ | ⟨_, _, -, -, rfl⟩ | ⟨_, -, -, rfl⟩ |
    ⟨_, -, -, -, rfl⟩ | ⟨_, -, -, -, rfl⟩ | ⟨_, -, -, rfl⟩ | ⟨_, -, -, rfl⟩ | ⟨_, -, -, rfl⟩ |
    ⟨_, -, -, rfl⟩ | ⟨_, -, rfl⟩
  · exact .inl rfl -- NOP
  · exact .inr rfl -- CSUM past the buffer
  · exact .inl rfl -- CSUM
  · exact .inr rfl -- ENCODE_UDP above the MTU
  · exact .inr rfl -- ENCODE_UDP past the buffer
  · exact .inl rfl -- ENCODE_UDP
  · exact .inr rfl -- DECODE past the buffer
  · exact .inl rfl -- DECODE
  · exact .inl rfl -- ARP_HANDLE with a reply
  · exact .inl rfl -- ARP_HANDLE without a reply
  · exact .inl rfl -- MATCH_UDP

/-- Settles O30: a command whose ERR is not 0 took an error path, where the next state is the completion of the
state before. -/
theorem errorChangesOnlyStatus : Obligations.ErrorChangesOnlyStatus := by
  intro i s t h herr
  exact (exec_noError_or_complete h).resolve_left herr

end Sys2Proof
end

section
/-! PROOF. The shapes of a host's input and of a step, and what they say of the parameters, RXBUF and the sticky bits
of STATUS (10_state.md R23, R48; 60_exceptions.md R183). -/

namespace Sys2Proof.Machine

/-! ## Where a host write lands -/

/-- A write that reaches a register is of one word, at the register's address (20_memory.md R52). -/
theorem eq_of_resolve_width_reg {p : Config.Params} {a : HostAddr} {v : HostData} {r : Reg}
    (h : resolve p a v.width = .reg r) : a = BitVec.ofNat 14 r.addr ∧ ∃ w, v = .word w := by
  obtain ⟨ha, hw⟩ := resolve_reg h
  refine ⟨BitVec.eq_of_toNat_eq ?_, ?_⟩
  · rw [← ha, BitVec.ofNat_toNat, BitVec.setWidth_eq]
  · cases v with
    | byte x => cases hw
    | half x => cases hw
    | word x => exact ⟨x, rfl⟩

/-- An access that reaches byte `i` of a buffer stands at `i` in the buffer's window (20_memory.md R50). -/
theorem toNat_of_resolve_bytes {p : Config.Params} {a : HostAddr} {n : Width} {b : BufSel} {i : Nat}
    (h : resolve p a n = .bytes b i) : a.toNat = windowBase b + i := by
  have hmod := (resolve_bytes h).2.2
  unfold resolve at h
  split at h
  · cases h
  · split at h
    · split at h
      · split at h <;> cases h
      · cases h
    · unfold bufTarget at h
      split at h <;> cases h
      simp only [windowBase]
      omega
    · unfold bufTarget at h
      split at h <;> cases h
      simp only [windowBase]
      omega
    · cases h

/-! ## What an input can do -/

/-- `t` is what input `e` makes of `s`: one constructor for each thing an input can do to the block. -/
inductive InputEffect (e : Input) (s : State) : State → Prop where
  /-- The reset input. -/
  | hardReset (he : e = .hwReset) : InputEffect e s (hardReset s)
  /-- A write to CTRL with SRST set. -/
  | softReset (he : e.resets = true) : InputEffect e s (softReset s)
  /-- A write to CTRL without SRST. -/
  | irqEn (b : Bool) : InputEffect e s { s with irqEn := b }
  /-- A write to STATUS. -/
  | status {v : Word} (he : e = .write 0x008 (.word v)) : InputEffect e s (writeStatus v s)
  /-- A command accepted. -/
  | accept (hp : s.pend = none) (w : Word) (delay : Nat) :
      InputEffect e s (loadCommand w delay { s with accepted := s.accepted + 1 })
  /-- A configuration register written. -/
  | config (hp : s.pend = none) (c : ConfigRegs) : InputEffect e s { s with cfg := c }
  /-- A write into a buffer. -/
  | store {a : HostAddr} {v : HostData} {b : BufSel} {i : Nat} (he : e = .write a v) (hp : s.pend = none)
      (ht : resolve s.params a v.width = .bytes b i) : InputEffect e s (s.storeBytes b i v.lanes)
  /-- A write dropped while a command is pending. -/
  | dropped : InputEffect e s { s with haz := true }
  /-- A write that is an error access. -/
  | errorWrite : InputEffect e s { s with busErr := true }
  /-- A write that is ignored. -/
  | ignored : InputEffect e s s
  /-- A read, or `wait`. -/
  | read (es : List Input) (out : List HostData) (d : Nat) {b : Bool} (hb : b = s.busErr ∨ b = true) :
      InputEffect e s { s with hostIn := es, hostOut := out, draws := d, busErr := b }

/-- What a word written to a register does. -/
theorem writeReg_effect (r : Reg) (w : Word) (s : State) :
    InputEffect (.write (BitVec.ofNat 14 r.addr) (.word w)) s (writeReg r w s) := by
  rcases writeReg_cases r w s with ⟨rfl, hv, h⟩ | ⟨rfl, -, h⟩ | ⟨rfl, h⟩ | ⟨-, hp, h⟩ | ⟨-, hp, h⟩ | ⟨-, -, h⟩ |
    ⟨-, -, -, -, h⟩ <;> rw [h]
  · exact .softReset (by simpa [Input.resets, Reg.addr] using hv)
  · exact .irqEn _
  · exact .status rfl
  · exact .accept hp _ _
  · exact .config hp _
  · exact .dropped
  · exact .ignored

/-- What a host write does. -/
theorem hostWrite_effect (a : HostAddr) (v : HostData) (s : State) :
    InputEffect (.write a v) s (hostWrite a v s) := by
  rcases hostWrite_cases a v s with ⟨-, h⟩ | ⟨-, h⟩ | ⟨r, ht, h⟩ | ⟨b, i, -, -, h⟩ | ⟨b, i, ht, hp, h⟩ <;> rw [h]
  · exact .errorWrite
  · exact .ignored
  · obtain ⟨rfl, w, rfl⟩ := eq_of_resolve_width_reg ht
    exact writeReg_effect r w s
  · exact .dropped
  · exact .store rfl hp ht

/-- What an input does. -/
theorem performInput_effect (e : Input) (s : State) : InputEffect e s (performInput e s) := by
  rcases performInput_cases e s with ⟨a, v, rfl, h⟩ | ⟨rfl, h⟩ | ⟨es, v, d, b, h, hb⟩ <;> rw [h]
  · exact hostWrite_effect a v s
  · exact .hardReset rfl
  · exact .read es _ d hb

/-! ## What a step can do -/

/-- The state in which a host turn performs its input: one host turn less before the engine's step (log 4), and
`es` the inputs that are left. -/
def atInput (s : State) (es : List Input) : State := { s with engineWait := s.engineWait - 1, hostIn := es }

/-- A host turn performs the next input, or, with none to come, only passes. -/
theorem hostTurn_cases (s : State) :
    hostTurn s = atInput s s.hostIn ∨
    ∃ e es, s.hostIn = e :: es ∧ InputEffect e (atInput s es) (hostTurn s) := by
  cases h : s.hostIn with
  | nil => exact .inl (by simp [hostTurn, takeInput, atInput, h])
  | cons e es =>
    refine .inr ⟨e, es, rfl, ?_⟩
    have heq : hostTurn s = performInput e (atInput s es) := by simp [hostTurn, takeInput, atInput, h]
    rw [heq]
    exact performInput_effect e _

/-- A step of the engine when a command is due, and a host turn otherwise. -/
theorem step_engine_or_host {s t : State} (h : step s = .next t) :
    (s.pend ≠ none ∧ s.engineWait = 0 ∧ EngineFrame s t) ∨
    ((s.pend = none ∨ s.engineWait ≠ 0) ∧ t = hostTurn s) := by
  rcases step_cases h with ⟨w, hp, hw, -⟩ | hhost
  · rw [step_of_due hp hw] at h
    exact .inl ⟨by simp [hp], hw, engineStep_frame h⟩
  · exact .inr hhost

end Sys2Proof.Machine
end

section
/-! PROOF. The invariant and every step (10_state.md R24, R41, R42, R48; 20_memory.md R61; 41_codec.md R125, R126). -/

namespace Sys2Proof.Machine

/-! ## The latched decode -/

theorem consistent_cleared (n : Nat) : Latch.cleared.Consistent n := by
  simp [Latch.Consistent, Latch.cleared]

/-- A latch of class UNHANDLED with no ARP field set and no payload is consistent. -/
theorem consistent_of_unhandled {n : Nat} {l : Latch} (hc : l.rxClass = .unhandled) (hp : l.payLen = 0)
    (ha : l.NoArp) : l.Consistent n := by
  simp only [Latch.Consistent, hc]
  exact ⟨hp, ha⟩

/-- DECODE's ARP branch, from a latch that holds the Ethernet fields only. -/
theorem decodeArp_consistent (rd : Nat → Byte) (len n : Nat) {eth : Latch} (hc : eth.rxClass = .unhandled)
    (he : eth.ethertype = etypeArp) (hi : eth.NoIpv4) (ha : eth.NoArp) :
    (decodeArp rd len eth).Consistent n := by
  unfold decodeArp
  split
  · obtain ⟨-, -, -, -, -, -, -, hp⟩ := hi
    exact consistent_of_unhandled hc hp ha
  · exact ⟨he, hi⟩

/-- DECODE's UDP part, from a latch that holds the IPv4 fields of a UDP datagram: the payload length is the
datagram's without its header, clipped, so it never exceeds it. -/
theorem decodeUdp_consistent (rd : Nat → Byte) {len n : Nat} (cap : Half) {ip : Latch} (hn : len ≤ n)
    (hc : ip.rxClass = .unhandled) (he : ip.ethertype = etypeIpv4) (hproto : ip.ipProto = 0x4511)
    (hp : ip.payLen = 0) (ha : ip.NoArp) : (decodeUdp rd len cap ip).Consistent n := by
  unfold decodeUdp
  dsimp only
  split
  · exact consistent_of_unhandled hc hp ha
  · rename_i hlen
    simp only [udpOff, not_or, not_lt] at hlen
    have hlt := (be16At rd 38).isLt
    have hpay : (BitVec.ofNat 16 (min ((be16At rd 38).toNat - 8) cap.toNat)).toNat + 8 ≤ (be16At rd 38).toNat := by
      rw [BitVec.toNat_ofNat]
      omega
    exact ⟨he, hproto, hlen.1, hlen.2.trans hn, hpay, ha⟩

/-- DECODE's IPv4 branch, from a latch that holds the Ethernet fields only. -/
theorem decodeIpv4_consistent (rd : Nat → Byte) {len n : Nat} (cap : Half) {eth : Latch} (hn : len ≤ n)
    (hc : eth.rxClass = .unhandled) (he : eth.ethertype = etypeIpv4) (hp : eth.payLen = 0) (ha : eth.NoArp) :
    (decodeIpv4 rd len cap eth).Consistent n := by
  unfold decodeIpv4
  dsimp only
  split
  · exact consistent_of_unhandled hc hp ha
  split
  · exact consistent_of_unhandled hc hp ha
  split
  · exact consistent_of_unhandled hc hp ha
  split
  · exact consistent_of_unhandled hc hp ha
  rename_i hvihl hproto _
  refine decodeUdp_consistent rd cap hn hc he ?_ hp ha
  dsimp only
  rw [not_not.mp hvihl, not_not.mp hproto]
  rfl

/-- What DECODE latches is consistent, for a frame no longer than the buffer (41_codec.md R125, R126). -/
theorem decodeFrame_consistent (rd : Nat → Byte) {len n : Nat} (cap : Half) (hn : len ≤ n) :
    (decodeFrame rd len cap).Consistent n := by
  unfold decodeFrame
  dsimp only
  have hi : Latch.cleared.NoIpv4 := by decide
  have ha : Latch.cleared.NoArp := by decide
  split
  · exact consistent_cleared n
  split
  · exact decodeArp_consistent rd len n rfl ‹_› hi ha
  split
  · exact decodeIpv4_consistent rd cap hn rfl ‹_› rfl ha
  · exact consistent_of_unhandled rfl rfl ha

/-! ## Updates that keep the invariant -/

namespace State.Inv

variable {s : State} (h : s.Inv)
include h

/-- The invariant speaks of none of these fields. -/
theorem setUnconstrained {irqEn haz busErr arpReplied : Bool} {cfg : ConfigRegs} {csumResult : Half}
    {matchKind : MatchKind} {accepted draws : Nat} {hostIn : List Input} {hostOut : List HostData} :
    State.Inv { s with
      irqEn := irqEn, haz := haz, busErr := busErr, arpReplied := arpReplied, cfg := cfg, csumResult := csumResult,
      matchKind := matchKind, accepted := accepted, draws := draws, hostIn := hostIn, hostOut := hostOut } :=
  ⟨h.legal, h.rx, h.tx, h.pending, h.idle, h.txLen, h.latch⟩

theorem setLatch {l : Latch} (hl : l.Consistent s.params.bufBytes) : State.Inv { s with latch := l } :=
  ⟨h.legal, h.rx, h.tx, h.pending, h.idle, h.txLen, hl⟩

/-- A command that is due may complete. -/
theorem complete {c : ErrCode} (hw : s.engineWait = 0) : (complete c s).Inv where
  legal := h.legal
  rx := h.rx
  tx := h.tx
  pending := by simp
  idle := fun _ => hw
  txLen := h.txLen
  latch := h.latch

/-- A frame that holds all its headers and fits the buffer may be built. -/
theorem buildFrame {hdr : List Byte} {n : Nat} (hhdr : hdr.length ≤ s.params.bufBytes) (h42 : 42 ≤ n)
    (hn : n ≤ s.params.bufBytes) : (buildFrame hdr n s).Inv where
  legal := h.legal
  rx := h.rx
  tx := buildFrame_canonical h.legal h.tx.1 h.tx.2 hhdr hn
  pending := h.pending
  idle := h.idle
  txLen := by
    obtain ⟨-, hmax, -, hmin⟩ := h.legal
    rw [buildFrame_txLen, BitVec.toNat_ofNat, buildFrame_params]
    right
    omega
  latch := h.latch

theorem writeStatus (v : Word) : (writeStatus v s).Inv where
  legal := h.legal
  rx := h.rx
  tx := h.tx
  pending := fun w hw => by
    obtain ⟨hdone, herr, hop⟩ := h.pending w hw
    exact ⟨by simp [hdone], herr, hop⟩
  idle := h.idle
  txLen := h.txLen
  latch := h.latch

theorem loadCommand (w : Word) (delay : Nat) : (loadCommand w delay s).Inv where
  legal := h.legal
  rx := h.rx
  tx := h.tx
  pending := fun v hv => by cases hv; exact ⟨rfl, rfl, rfl⟩
  idle := fun hp => by cases hp
  txLen := h.txLen
  latch := h.latch

/-- Bytes may be stored inside a buffer. -/
theorem storeBytes {b : BufSel} {i : Nat} {bs : List Byte} (hi : i + bs.length ≤ s.params.bufBytes) :
    (s.storeBytes b i bs).Inv := by
  have hrx := storeBytes_canonical (b := b) (c := .rx) h.rx.1 h.rx.2 hi
  have htx := storeBytes_canonical (b := b) (c := .tx) h.tx.1 h.tx.2 hi
  cases b with
  | rx => exact ⟨h.legal, hrx, htx, h.pending, h.idle, h.txLen, h.latch⟩
  | tx => exact ⟨h.legal, hrx, htx, h.pending, h.idle, h.txLen, h.latch⟩

theorem softReset : (softReset s).Inv where
  legal := h.legal
  rx := h.rx
  tx := h.tx
  pending := by simp
  idle := fun _ => rfl
  txLen := .inl rfl
  latch := consistent_cleared _

theorem hardReset : (hardReset s).Inv where
  legal := h.legal
  rx := ⟨rfl, rfl⟩
  tx := ⟨rfl, rfl⟩
  pending := by simp
  idle := fun _ => rfl
  txLen := .inl rfl
  latch := consistent_cleared _

/-- A host turn counts down the engine's delay: an idle block's stays 0. -/
theorem atInput (es : List Input) : (atInput s es).Inv where
  legal := h.legal
  rx := h.rx
  tx := h.tx
  pending := h.pending
  idle := fun hp => by show s.engineWait - 1 = 0; rw [h.idle hp]
  txLen := h.txLen
  latch := h.latch

end State.Inv

/-! ## Steps -/

/-- A due command keeps the invariant: each of its effects does, and so does its completion. -/
theorem exec_keeps_inv {i : Instr} {s t : State} (h : s.Inv) (hw : s.engineWait = 0) (he : exec i s = .next t) :
    t.Inv := by
  have h64 := h.legal.1
  rcases exec_cases he with ⟨_, -, rfl⟩ | ⟨_, _, -, -, rfl⟩ | ⟨_, _, -, -, rfl⟩ | ⟨_, -, -, rfl⟩ |
    ⟨_, -, -, -, rfl⟩ | ⟨n, -, -, hn, rfl⟩ | ⟨_, -, -, rfl⟩ | ⟨_, -, hn, rfl⟩ | ⟨_, -, -, rfl⟩ |
    ⟨_, -, -, rfl⟩ | ⟨_, -, rfl⟩
  · exact h.complete hw -- NOP
  · exact h.complete hw -- CSUM past the buffer
  · exact .complete h.setUnconstrained hw -- CSUM
  · exact h.complete hw -- ENCODE_UDP above the MTU
  · exact h.complete hw -- ENCODE_UDP past the buffer
  · -- ENCODE_UDP
    have hb := h.buildFrame (hdr := datagramHeaders s.cfg n) (by rw [datagramHeaders_length]; omega)
      (Nat.le_add_right 42 n) hn
    exact .complete hb.setUnconstrained (by rw [buildFrame_engineWait]; exact hw)
  · exact h.complete hw -- DECODE past the buffer
  · exact .complete (h.setLatch (decodeFrame_consistent _ _ hn)) hw -- DECODE
  · -- ARP_HANDLE with a reply
    have hb := h.buildFrame (hdr := arpReplyBytes s.latch s.cfg) (by rw [arpReplyBytes_length]; omega)
      (Nat.le_refl 42) (by omega)
    exact .complete hb.setUnconstrained (by rw [buildFrame_engineWait]; exact hw)
  · exact .complete h.setUnconstrained hw -- ARP_HANDLE without a reply
  · exact .complete h.setUnconstrained hw -- MATCH_UDP

/-- No input breaks the invariant. -/
theorem InputEffect.keeps_inv {e : Input} {s t : State} (he : InputEffect e s t) (h : s.Inv) : t.Inv := by
  cases he with
  | hardReset _ => exact h.hardReset
  | softReset _ => exact h.softReset
  | irqEn _ => exact h.setUnconstrained
  | status _ => exact h.writeStatus _
  | accept _ w delay => exact h.setUnconstrained.loadCommand w delay
  | config _ _ => exact h.setUnconstrained
  | store _ _ ht =>
    refine h.storeBytes ?_
    rw [lanes_length]
    exact resolve_bytes_end h.legal ht
  | dropped => exact h.setUnconstrained
  | errorWrite => exact h.setUnconstrained
  | ignored => exact h
  | read _ _ _ _ => exact h.setUnconstrained

/-- Settles O53: the engine's step is a command's effect or an illegal word's completion, and a host turn is one
input. -/
theorem stepKeepsInvariant : Obligations.StepKeepsInvariant := by
  intro s t h hstep
  rcases step_cases hstep with ⟨w, -, hw, ⟨i, -, he⟩ | ⟨_, -, rfl⟩⟩ | ⟨-, rfl⟩
  · exact exec_keeps_inv h hw he
  · exact h.complete hw
  · rcases hostTurn_cases s with hidle | ⟨e, es, -, he⟩
    · rw [hidle]
      exact h.atInput _
    · exact he.keeps_inv (h.atInput es)

end Sys2Proof.Machine
end

section
/-! PROOF. What steps and inputs never change: the parameters (10_state.md R23), RXBUF but for the host's writes
(R48), and the sticky bits of STATUS (60_exceptions.md R183). -/

namespace Sys2Proof.Machine

/-! ## Parameters -/

theorem InputEffect.params_eq {e : Input} {s t : State} (h : InputEffect e s t) : t.params = s.params := by
  cases h with
  | @store _ _ b _ _ _ _ => cases b <;> rfl
  | _ => rfl

/-- Settles O57: neither a command nor an input has the parameters among what it writes. -/
theorem parametersNeverChange : Obligations.ParametersNeverChange := by
  intro s t h
  rcases step_engine_or_host h with ⟨-, -, hf⟩ | ⟨-, rfl⟩
  · exact hf.params
  · rcases hostTurn_cases s with hidle | ⟨e, es, -, he⟩
    · rw [hidle]
      rfl
    · exact he.params_eq

/-! ## RXBUF -/

/-- Only the reset input and a write to a buffer change the byte a buffer holds. -/
theorem InputEffect.byteAt_ne {e : Input} {s t : State} {c : BufSel} {j : Nat} (h : InputEffect e s t)
    (hne : t.byteAt c j ≠ s.byteAt c j) :
    e = .hwReset ∨ ∃ a v, e = .write a v ∧ s.pend = none ∧
      windowBase c ≤ a.toNat ∧ a.toNat ≤ windowBase c + j ∧ windowBase c + j < a.toNat + v.width.bytes := by
  cases h with
  | hardReset he => exact .inl he
  | @store a v b i he hp ht =>
    rw [byteAt_storeBytes, lanes_length] at hne
    obtain ⟨rfl, hlo, hhi⟩ : c = b ∧ i ≤ j ∧ j < i + v.width.bytes := by
      by_contra hout
      rw [if_neg hout] at hne
      exact hne rfl
    have ha := toNat_of_resolve_bytes ht
    exact .inr ⟨a, v, he, hp, by omega, by omega, by omega⟩
  | _ => exact absurd (byteAt_congr (by cases c <;> rfl) rfl j) hne

/-- Settles O56: a command leaves RXBUF alone, and of the inputs only the reset and a write into the window change a
byte of it. -/
theorem rxBufChangesOnlyByHost : Obligations.RxBufChangesOnlyByHost := by
  intro s t i h hne
  rcases step_engine_or_host h with ⟨-, -, hf⟩ | ⟨-, rfl⟩
  · exact absurd (byteAt_congr (b := .rx) hf.rx hf.epoch i) hne
  · rcases hostTurn_cases s with hidle | ⟨e, es, hin, he⟩
    · exact absurd (by rw [hidle]; rfl) hne
    · rw [hin, List.head?_cons]
      rcases he.byteAt_ne hne with rfl | ⟨a, v, rfl, hp, hlo, hle, hhi⟩
      · exact .inl rfl
      · exact .inr ⟨a, v, rfl, hp, hlo, hle, hhi⟩

/-! ## The sticky bits -/

/-- An input that is no reset, and no write to STATUS with bit 2 or bit 3 set, keeps HAZ and BUSERR where they
are 1. -/
theorem InputEffect.sticky {e : Input} {s t : State} (h : InputEffect e s t) (hr : e.resets = false)
    (hv : ∀ v, e = .write 0x008 (.word v) → v.getLsbD 2 = false ∧ v.getLsbD 3 = false) :
    (s.haz = true → t.haz = true) ∧ (s.busErr = true → t.busErr = true) := by
  cases h with
  | hardReset he => subst he; cases hr
  | softReset he => rw [he] at hr; cases hr
  | @status v he =>
    obtain ⟨h2, h3⟩ := hv v he
    exact ⟨fun hs => by rw [writeStatus_haz, hs, h2]; rfl, fun hs => by rw [writeStatus_busErr, hs, h3]; rfl⟩
  | @store a v b i _ _ _ => cases b <;> exact ⟨id, id⟩
  | dropped => exact ⟨fun _ => rfl, id⟩
  | errorWrite => exact ⟨id, fun _ => rfl⟩
  | read es out d hb => exact ⟨id, fun hs => hb.elim (fun h => h.trans hs) id⟩
  | irqEn _ => exact ⟨id, id⟩
  | accept _ _ _ => exact ⟨id, id⟩
  | config _ _ => exact ⟨id, id⟩
  | ignored => exact ⟨id, id⟩

/-- Settles O59: no command writes HAZ or BUSERR, and no input clears them but the two the statement excepts. -/
theorem stickyBitsStay : Obligations.StickyBitsStay := by
  refine ⟨?_, fun s e hr hv => (performInput_effect e s).sticky hr hv⟩
  intro s t w hp hw h
  rw [step_of_due hp hw] at h
  have hf := engineStep_frame h
  exact ⟨hf.haz, hf.busErr⟩

end Sys2Proof.Machine
end

section
/-! PROOF. The register map and what host writes to registers do (10_state.md R25, R27, R28; 20_memory.md R52). -/

namespace Sys2Proof.Machine

/-! ## The map (10_state.md R25) -/

theorem mem_all (r : Reg) : r ∈ Reg.all := by cases r <;> decide

/-- The statement's copy of the map lists every register once, at its address. -/
theorem registerMap_eq : registerMap = Reg.all.map fun r => (r.addr, r) := rfl

theorem mem_registerMap (a : Nat) (r : Reg) : (a, r) ∈ registerMap ↔ r.addr = a := by
  simp [registerMap_eq, mem_all]

theorem regAt_eq_some_iff (a : Nat) (r : Reg) : regAt a = some r ↔ r.addr = a := by
  constructor
  · exact regAt_eq
  · rintro rfl
    exact regAt_addr r

/-- A 4-byte access at an aligned address that the map does not list reaches a reserved register. -/
theorem resolve_reserved (p : Config.Params) {a : HostAddr} (hlt : a.toNat < 0x1000) (h4 : a.toNat % 4 = 0)
    (hr : regAt a.toNat = none) : resolve p a .w32 = .reserved := by
  have hpage : a.toNat / 0x1000 = 0 := Nat.div_eq_of_lt hlt
  simp [resolve, Width.bytes, h4, hpage, hr]

/-- No read of a reserved register is unspecified: it lies in no write set (20_memory.md R59). -/
theorem unspecifiedRead_reserved (s : State) : unspecifiedRead s .reserved = false := by
  cases h : s.pend <;> simp [unspecifiedRead, h]

/-- Settles O16: the map is the list of all registers with their addresses, and a read that it does not list is
answered with 0. -/
theorem reservedRegistersReadZero : Obligations.ReservedRegistersReadZero := by
  refine ⟨fun r => (mem_registerMap _ r).mpr rfl, fun a r => ?_, fun s a hlt h4 hr => ?_⟩
  · rw [regAt_eq_some_iff, mem_registerMap]
  · rw [hostRead, resolve_reserved _ hlt h4 hr]
    simp only [unspecifiedRead_reserved]
    rfl

/-! ## Bits no row lists -/

/-- A value that is zero-extended reads 0 above its own width. -/
theorem getLsbD_setWidth_of_le {w n k : Nat} (x : BitVec w) (h : w ≤ k) : (x.setWidth n).getLsbD k = false := by
  rw [BitVec.getLsbD_setWidth, BitVec.getLsbD_of_ge x k h, Bool.and_false]

/-- CTRL is one bit wide. -/
theorem ctrlWord_eq (s : State) : ctrlWord s = (flagBit s.irqEn).setWidth 32 := by
  rw [ctrlWord]
  cases s.irqEn <;> rfl

/-- STATUS is twelve bits wide. -/
theorem statusWord_getLsbD_of_le (s : State) {k : Nat} (h : 12 ≤ k) : (statusWord s).getLsbD k = false := by
  have hlt : (statusWord s).toNat < 2 ^ 12 := by
    have := s.lastOp.isLt
    have := s.err.bits.isLt
    have := (flagBit s.busErr).isLt
    have := (flagBit s.haz).isLt
    have := (flagBit s.done).isLt
    have := (flagBit s.busy).isLt
    simp only [statusWord, toNat_append_eq_add]
    simp only [BitVec.toNat_ofNat]
    omega
  exact Nat.testBit_lt_two_pow (hlt.trans_le (Nat.pow_le_pow_right (by decide) h))

/-- The 16-bit registers of the map, PAY_OFF among them. -/
def halfRegs : List Reg :=
  [.mtu, .rxCap, .csumOff, .ipId, .localMacHi, .localPort, .mcastPort, .dstMacHi, .dstPort, .csumResult, .txLen,
   .ethertype, .ethDstHi, .ethSrcHi, .ipProto, .ipTotlen, .udpSport, .udpDport, .udpLen, .payLen, .payOff, .arpShaHi,
   .arpThaHi]

/-- Each of them reads a 16-bit value, zero-extended. -/
theorem readReg_halfRegs {r : Reg} (h : r ∈ halfRegs) (s : State) : ∃ x : Half, readReg r s = x.setWidth 32 := by
  by_cases hp : r = .payOff
  · subst hp
    exact ⟨42, rfl⟩
  · cases r <;> simp [halfRegs] at h hp <;> exact ⟨_, rfl⟩

/-- Settles O17: each register reads a value of its row's width, zero-extended. -/
theorem unlistedBitsReadZero : Obligations.UnlistedBitsReadZero := by
  intro s r k
  refine ⟨?_, ?_, ?_, ?_, ?_, ?_⟩
  · rintro rfl hk
    rw [readReg, ctrlWord_eq]
    exact getLsbD_setWidth_of_le _ hk
  · rintro rfl hk
    exact statusWord_getLsbD_of_le s hk
  · rintro rfl
    exact BitVec.getLsbD_zero
  · rintro (rfl | rfl) hk <;> exact getLsbD_setWidth_of_le _ hk
  · rintro (rfl | rfl) hk <;> exact getLsbD_setWidth_of_le _ hk
  · intro hr hk
    obtain ⟨x, hx⟩ := readReg_halfRegs (r := r) hr s
    rw [hx]
    exact getLsbD_setWidth_of_le x hk

/-! ## CTRL -/

/-- A flag is its bit. -/
theorem flagBit_eq_ofBool (b : Bool) : flagBit b = BitVec.ofBool b := by cases b <;> rfl

/-- Bit 0 of a word, as a one-bit register reads it. -/
theorem flagBit_getLsbD_zero (v : Word) : (flagBit (v.getLsbD 0)).setWidth 32 = v &&& 0x00000001 := by
  rw [flagBit_eq_ofBool]
  exact BitVec.and_one_eq_setWidth_ofBool_getLsbD.symm

/-- Settles O24: without SRST, CTRL's write is an update of IRQ_EN, which only CTRL reads. -/
theorem ctrlWriteSetsIrqEnable : Obligations.CtrlWriteSetsIrqEnable := by
  intro s v hv
  have hw : hostWrite 0x004 (.word v) s = { s with irqEn := v.getLsbD 0 } := by
    refine (hostWrite_reg .ctrl v s).trans ?_
    simp only [writeReg, writeCtrl, hv]
    rfl
  refine ⟨_, hw, ?_, ?_, fun _ => rfl, fun _ => rfl, rfl, ⟨rfl, rfl, rfl, rfl, rfl, rfl, rfl⟩⟩
  · rw [readReg, ctrlWord_eq]
    exact flagBit_getLsbD_zero v
  · intro r hr
    by_cases hs : r = .status
    · subst hs
      rfl
    · exact readReg_congr (by simpa [hs] using hr) rfl rfl rfl rfl rfl rfl

/-! ## STATUS -/

/-- Above its four flags STATUS holds ERR and LAST_OP. -/
theorem statusWord_getLsbD_add_four (s : State) (k : Nat) :
    (statusWord s).getLsbD (k + 4) = (0#20 ++ s.lastOp ++ s.err.bits).getLsbD k := by
  simp only [statusWord, BitVec.getLsbD_append (y := flagBit _)]
  rw [if_neg (by omega), if_neg (by omega), if_neg (by omega), if_neg (by omega)]
  congr 1

/-- The write-1-to-clear bits of STATUS. -/
theorem statusMask_getLsbD {i : Nat} (hi : i < 32) :
    (0x0000000E : Word).getLsbD i = (i == 1 || i == 2 || i == 3) := by
  revert i
  decide

/-- STATUS after a write to it (10_state.md R28): bit by bit, the three flags cleared by the mask, all else kept. -/
theorem statusWord_writeStatus (v : Word) (s : State) :
    statusWord (writeStatus v s) = statusWord s &&& ~~~ (v &&& 0x0000000E) := by
  obtain ⟨hbusy, hdone, hhaz, herr⟩ := statusWord_flags s
  obtain ⟨hbusy', hdone', hhaz', herr'⟩ := statusWord_flags (writeStatus v s)
  apply BitVec.eq_of_getLsbD_eq
  intro i hi
  rw [BitVec.getLsbD_and, BitVec.getLsbD_not, BitVec.getLsbD_and, statusMask_getLsbD hi, decide_eq_true hi,
    Bool.true_and]
  match i with
  | 0 => rw [hbusy, hbusy']; simp [State.busy]
  | 1 => rw [hdone, hdone']; simp
  | 2 => rw [hhaz, hhaz']; simp
  | 3 => rw [herr, herr']; simp
  | k + 4 => rw [statusWord_getLsbD_add_four, statusWord_getLsbD_add_four]; simp

/-- ERR reads the number of its code (60_exceptions.md R181). -/
theorem errBits_toNat (c : ErrCode) : c.bits.toNat = errorNumber c := by cases c <;> rfl

/-- Settles O23: the fields of STATUS are those of its word, and a write to it touches three flags that only STATUS
reads. -/
theorem statusWriteClearsOnes : Obligations.StatusWriteClearsOnes := by
  refine ⟨fun s => ?_, fun s v => ⟨writeStatus v s, hostWrite_reg .status v s, statusWord_writeStatus v s, ?_,
    fun _ => rfl, fun _ => rfl, rfl, ⟨rfl, rfl, rfl, rfl, rfl, rfl, rfl⟩⟩⟩
  · obtain ⟨hbusy, hdone, hhaz, hbuserr⟩ := statusWord_flags s
    refine ⟨?_, hdone, hhaz, hbuserr, ?_, statusWord_lastOp s⟩
    · rw [readReg, hbusy, State.busy, Option.isSome_iff_ne_none]
    · rw [statusCode, readReg, statusWord_err, errBits_toNat]
  · intro r hr
    by_cases hc : r = .ctrl
    · subst hc
      rfl
    · exact readReg_congr (by simpa [hc] using hr) rfl rfl rfl rfl rfl rfl

/-! ## Configuration registers -/

/-- The low half of a word, as a 16-bit register reads it. -/
theorem setWidth_extract_eq_and (v : Word) : (v.extractLsb' 0 16).setWidth 32 = v &&& 0x0000FFFF := by
  apply BitVec.eq_of_toNat_eq
  rw [toNat_setWidth_word, toNat_extract, BitVec.toNat_and, Nat.pow_zero, Nat.div_one]
  exact (Nat.and_two_pow_sub_one_eq_mod v.toNat 16).symm

/-- A configuration register reads what was written to it, in the bits its row lists. -/
theorem readReg_writeConfig_self {r : Reg} (hr : r.isConfig = true) (v : Word) (s : State) :
    readReg r { s with cfg := writeConfig r v s.cfg } = v &&& configMask r := by
  cases r with
  | mtu | rxCap | csumOff | ipId | localMacHi | localPort | mcastPort | dstMacHi | dstPort =>
    exact setWidth_extract_eq_and v
  | localMacLo | localIp | mcastIp | dstMacLo | dstIp => exact BitVec.and_allOnes.symm
  | mcastCfg => exact flagBit_getLsbD_zero v
  | _ => cases hr

/-- An idle block stores a write to a configuration register (20_memory.md R58). -/
theorem writeReg_of_isConfig {r : Reg} {s : State} (hr : r.isConfig = true) (hp : s.pend = none) (v : Word) :
    writeReg r v s = { s with cfg := writeConfig r v s.cfg } := by
  have hctrl : r ≠ .ctrl := by rintro rfl; cases hr
  have hstatus : r ≠ .status := by rintro rfl; cases hr
  have hcmd : r ≠ .cmd := by rintro rfl; cases hr
  simp [writeReg, State.busy, hctrl, hstatus, hcmd, hr, hp]

/-- A write to a configuration register changes no other. -/
theorem readReg_writeConfig_other {r q : Reg} (hq : q ≠ r) (v : Word) (s : State) :
    readReg q { s with cfg := writeConfig r v s.cfg } = readReg q s := by
  cases r with
  | mtu | rxCap | csumOff | ipId | localMacHi | localMacLo | localIp | localPort | mcastCfg | mcastIp | mcastPort |
    dstMacHi | dstMacLo | dstIp | dstPort => cases q <;> first | rfl | exact absurd rfl hq
  | _ => rfl

/-- Settles O15: an idle block stores the write in the register's field, which no other register reads. -/
theorem configWriteReadsBack : Obligations.ConfigWriteReadsBack := by
  intro s r v hp hlo hhi
  have hc : r.isConfig = true := (isConfig_iff r).mpr ⟨hlo, hhi⟩
  refine ⟨_, (hostWrite_reg r v s).trans (writeReg_of_isConfig hc hp v), readReg_writeConfig_self hc v s,
    fun q hq => ?_, fun _ => rfl, fun _ => rfl, hp, ⟨rfl, rfl, rfl, rfl, rfl, rfl, rfl⟩⟩
  exact readReg_writeConfig_other (by simpa using hq) v s

end Sys2Proof.Machine
end

section
/-! PROOF. What the commands write between them (10_state.md R25, R48; 41_codec.md R123; 44_control.md R162). -/

namespace Sys2Proof.Machine

/-- Settles O29: every command answers a next state, and none writes what the frame of the engine lists. -/
theorem everyCommandCompletes : Obligations.EveryCommandCompletes := by
  intro i s
  obtain ⟨t, h⟩ := exec_next i s
  have hf := exec_frame h
  exact ⟨t, t.err, h, ⟨rfl, hf.done, hf.pend, hf.lastOp, hf.haz, hf.busErr⟩,
    ⟨hf.params, hf.epoch, hf.engineWait, hf.accepted, hf.draws, hf.hostIn, hf.hostOut⟩, hf.irqEn, hf.cfg,
    byteAt_congr (b := .rx) hf.rx hf.epoch⟩

/-- Settles O32: in each case of what a command can do, the fields it does not write are those before, and the
command is the one named for those it writes. -/
theorem onlyTheNamedCommandsWrite : Obligations.OnlyTheNamedCommandsWrite := by
  intro i s t h
  rcases exec_cases h with ⟨n, rfl, rfl⟩ | ⟨b, n, rfl, _, rfl⟩ | ⟨b, n, rfl, _, rfl⟩ | ⟨n, rfl, _, rfl⟩ |
    ⟨n, rfl, _, _, rfl⟩ | ⟨n, rfl, _, _, rfl⟩ | ⟨n, rfl, _, rfl⟩ | ⟨n, rfl, _, rfl⟩ | ⟨n, rfl, _, rfl⟩ |
    ⟨n, rfl, _, rfl⟩ | ⟨n, rfl, rfl⟩ <;> simp

end Sys2Proof.Machine
end

section
/-! PROOF. The host port access by access: which accesses are errors, what a read returns, what a write stores, and
what BUSY changes of both (20_memory.md R50 to R60). -/

namespace Sys2Proof.Machine

/-! ## What an access reaches -/

theorem bufTarget_eq_error_iff (p : Config.Params) (b : BufSel) (i : Nat) :
    bufTarget p b i = .error ↔ p.bufBytes ≤ i := by
  unfold bufTarget
  split <;> simp <;> omega

/-- A misaligned access is an error access. -/
theorem resolve_misaligned (p : Config.Params) {a : HostAddr} {n : Width} (h : a.toNat % n.bytes ≠ 0) :
    resolve p a n = .error := by
  rw [resolve, if_pos h]

/-- An aligned access below 0x1000 is an error access exactly when it is not 4 bytes wide. -/
theorem resolve_registers_eq_error_iff (p : Config.Params) {a : HostAddr} {n : Width} (h : a.toNat % n.bytes = 0)
    (hpage : a.toNat / 0x1000 = 0) : resolve p a n = .error ↔ n ≠ .w32 := by
  by_cases hn : n = .w32
  · subst hn
    cases hr : regAt a.toNat <;> simp [resolve, h, hpage, hr]
  · simp [resolve, h, hpage, hn]

/-- An aligned access to the page of a buffer's window reaches what its offset names (20_memory.md R50). -/
theorem resolve_of_page (p : Config.Params) (b : BufSel) {a : HostAddr} {n : Width} (h : a.toNat % n.bytes = 0)
    (hpage : a.toNat / 0x1000 = windowBase b / 0x1000) : resolve p a n = bufTarget p b (a.toNat % 0x1000) := by
  cases b <;> simp [resolve, h, hpage, windowBase]

/-- The error accesses of the model are the four kinds of 20_memory.md R55: by alignment, then by the page of the
address. -/
theorem resolve_eq_error_iff (p : Config.Params) (a : HostAddr) (n : Width) :
    resolve p a n = .error ↔ ErrorAccess p a n := by
  unfold ErrorAccess
  have ha := a.isLt
  by_cases halign : a.toNat % n.bytes = 0
  · have hpage : a.toNat / 0x1000 = 0 ∨ a.toNat / 0x1000 = 1 ∨ a.toNat / 0x1000 = 2 ∨ a.toNat / 0x1000 = 3 := by
      omega
    rcases hpage with hpage | hpage | hpage | hpage
    · rw [resolve_registers_eq_error_iff p halign hpage]
      constructor
      · exact fun hn => .inr (.inl ⟨by omega, hn⟩)
      · rintro (h | ⟨-, hn⟩ | h | ⟨h, -⟩)
        · exact absurd halign h
        · exact hn
        · omega
        · omega
    · rw [resolve_of_page p .rx halign hpage, bufTarget_eq_error_iff]
      omega
    · rw [resolve_of_page p .tx halign hpage, bufTarget_eq_error_iff]
      omega
    · have hres : resolve p a n = .error := by simp [resolve, halign, hpage]
      exact ⟨fun _ => .inr (.inr (.inl (by omega))), fun _ => hres⟩
  · exact ⟨fun _ => .inl halign, fun _ => resolve_misaligned p halign⟩

/-- An aligned access at offset `i` of a buffer's window reaches byte `i` of the buffer (20_memory.md R50, R53). -/
theorem resolve_window {p : Config.Params} (hp : p.Legal) (b : BufSel) {i : Nat} {n : Width} (hi : i < p.bufBytes)
    (hn : i % n.bytes = 0) : resolve p (BitVec.ofNat 14 (windowBase b + i)) n = .bytes b i := by
  obtain ⟨-, hmax, -, -⟩ := hp
  have hbase : windowBase b % 0x1000 = 0 ∧ windowBase b ≤ 0x2000 := by cases b <;> decide
  have haddr : (BitVec.ofNat 14 (windowBase b + i)).toNat = windowBase b + i := by rw [BitVec.toNat_ofNat]; omega
  have halign : (windowBase b + i) % n.bytes = 0 := by cases n <;> simp only [Width.bytes] at hn ⊢ <;> omega
  have hpage : (windowBase b + i) / 0x1000 = windowBase b / 0x1000 := by omega
  have hoff : (windowBase b + i) % 0x1000 = i := by omega
  rw [resolve_of_page p b (by rwa [haddr]) (by rwa [haddr]), haddr, hoff, bufTarget, if_pos hi]

/-! ## Reads -/

/-- A read that is an error access returns 0 and sets BUSERR (20_memory.md R55). -/
theorem hostRead_of_error {s : State} {a : HostAddr} {n : Width} (ht : resolve s.params a n = .error) :
    hostRead a n s = reply (.ofWord n 0) { s with busErr := true } := by
  simp [hostRead, ht]

/-- A read of a target the pending command will write returns a free value (20_memory.md R59; log 5). -/
theorem hostRead_of_unspecified {s : State} {a : HostAddr} {n : Width} {t : Target} (ht : resolve s.params a n = t)
    (hne : t ≠ .error) (hu : unspecifiedRead s t = true) :
    hostRead a n s = reply (.ofWord n (Config.busyRead s.draws)) { s with draws := s.draws + 1 } := by
  simp [hostRead, ht, hne, hu]

/-- Every other read returns what its target holds (20_memory.md R52, R53). -/
theorem hostRead_of_exact {s : State} {a : HostAddr} {n : Width} {t : Target} (ht : resolve s.params a n = t)
    (hne : t ≠ .error) (hu : unspecifiedRead s t = false) : hostRead a n s = reply (targetValue s n t) s := by
  simp [hostRead, ht, hne, hu]

/-- No read is unspecified while no command is pending. -/
theorem unspecifiedRead_idle {s : State} (hp : s.pend = none) (t : Target) : unspecifiedRead s t = false := by
  simp [unspecifiedRead, hp]

@[simp] theorem width_ofWord (n : Width) (v : Word) : (HostData.ofWord n v).width = n := by cases n <;> rfl

@[simp] theorem width_lanesAt (rd : Nat → Byte) (i : Nat) (n : Width) : (lanesAt rd i n).width = n := by
  cases n <;> rfl

/-- A read returns as many bytes as it asks for. -/
@[simp] theorem width_targetValue (s : State) (n : Width) (t : Target) : (targetValue s n t).width = n := by
  cases t <;> simp [targetValue]

/-- Settles O21: a legal read either draws a free value or returns what its target holds, and an idle block has no
free reads. -/
theorem readsHaveNoSideEffect : Obligations.ReadsHaveNoSideEffect := by
  refine ⟨fun s a n hok => ?_, fun s r hp => hostRead_reg (unspecifiedRead_idle hp _)⟩
  have hne : resolve s.params a n ≠ .error := mt (resolve_eq_error_iff _ a n).mp hok
  cases hu : unspecifiedRead s (resolve s.params a n) with
  | true => exact ⟨_, s.draws + 1, width_ofWord n _, hostRead_of_unspecified rfl hne hu⟩
  | false => exact ⟨_, s.draws, width_targetValue s n _, hostRead_of_exact rfl hne hu⟩

/-! ## Error accesses -/

/-- A register write never sets BUSERR. -/
theorem writeReg_busErr {r : Reg} {v : Word} {s : State} (h : s.busErr = false) : (writeReg r v s).busErr = false := by
  rcases writeReg_cases r v s with ⟨-, -, h'⟩ | ⟨-, -, h'⟩ | ⟨-, h'⟩ | ⟨-, -, h'⟩ | ⟨-, -, h'⟩ | ⟨-, -, h'⟩ |
    ⟨-, -, -, -, h'⟩ <;> simp [h', h]

/-- Settles O20: the four kinds are the accesses that reach no target, and only those set BUSERR. -/
theorem errorAccessOnlySetsBusErr : Obligations.ErrorAccessOnlySetsBusErr := by
  intro s a n v
  simp only [← resolve_eq_error_iff]
  refine ⟨hostRead_of_error, fun he => ?_, fun hok => ?_, fun hok hb => ?_⟩
  · simp [hostWrite, he]
  · obtain ⟨_, _, b, h, rfl | ⟨-, he⟩⟩ := hostRead_shape a n s
    · rw [h]
    · exact absurd he hok
  · rcases hostWrite_cases a v s with ⟨he, -⟩ | ⟨-, h⟩ | ⟨r, -, h⟩ | ⟨_, _, -, -, h⟩ | ⟨b, _, -, -, h⟩
    · exact absurd he hok
    · rw [h, hb]
    · rw [h, writeReg_busErr hb]
    · rw [h]; exact hb
    · rw [h]; cases b <;> exact hb

/-! ## Reads while a command is pending -/

/-- Where the model finds a register in the write set of an opcode, the table of 20_memory.md R59 lists it. -/
theorem inWriteSet_iff (op : BitVec 4) (r : Reg) : inWriteSet op r = true ↔ r ∈ writeSet op := by
  unfold writeSet
  split_ifs with h1 h2 h3 h4 h5
  · subst h1; simp [inWriteSet]
  · subst h2; simp [inWriteSet]
  · subst h3; cases r <;> decide
  · subst h4; simp [inWriteSet]
  · subst h5; simp [inWriteSet]
  · unfold inWriteSet
    simp only [← BitVec.toNat_inj] at h1 h2 h3 h4 h5
    split <;> simp_all

theorem bufInWriteSet_iff (op : BitVec 4) (b : BufSel) :
    bufInWriteSet op b = true ↔ b = .tx ∧ (op = 2 ∨ op = 4) := by
  simp [bufInWriteSet]

/-- A register read is unspecified exactly when the pending opcode's write set lists the register (log 6). -/
theorem unspecifiedRead_reg_iff {s : State} {w : Word} (hp : s.pend = some w) (r : Reg) :
    unspecifiedRead s (.reg r) = true ↔ r ∈ writeSet (w.extractLsb' 0 4) := by
  simp only [unspecifiedRead, hp, opField, inWriteSet_iff]

/-- A buffer read is unspecified exactly when it is of TXBUF and the pending opcode writes a frame (log 6). -/
theorem unspecifiedRead_bytes_iff {s : State} {w : Word} (hp : s.pend = some w) (b : BufSel) (i : Nat) :
    unspecifiedRead s (.bytes b i) = true ↔ b = .tx ∧ (w.extractLsb' 0 4 = 2 ∨ w.extractLsb' 0 4 = 4) := by
  simp only [unspecifiedRead, hp, opField, bufInWriteSet_iff]

/-- Settles O22: a read is unspecified exactly when its target lies in the write set of the pending opcode. -/
theorem readsWhileBusy : Obligations.ReadsWhileBusy := by
  intro s w hp
  refine ⟨fun r => ?_, fun a n b i ht => ?_⟩
  · have hu := unspecifiedRead_reg_iff hp r
    split
    · exact hostRead_of_unspecified (resolve_addr _ r) nofun (hu.mpr ‹_›)
    · exact hostRead_reg (Bool.eq_false_iff.mpr (mt hu.mp ‹_›))
  · have hu := unspecifiedRead_bytes_iff hp b i
    split
    · exact hostRead_of_unspecified ht nofun (hu.mpr ‹_›)
    · exact hostRead_of_exact ht nofun (Bool.eq_false_iff.mpr (mt hu.mp ‹_›))

/-! ## Writes while a command is pending -/

/-- While BUSY a write to CMD or a configuration register only sets HAZ. -/
theorem writeReg_of_busy {r : Reg} {s : State} (hr : r = .cmd ∨ r.isConfig = true) (hp : s.pend ≠ none) (v : Word) :
    writeReg r v s = { s with haz := true } := by
  rcases writeReg_cases r v s with ⟨rfl, -, -⟩ | ⟨rfl, -, -⟩ | ⟨rfl, -⟩ | ⟨-, h0, -⟩ | ⟨-, h0, -⟩ | ⟨-, -, h⟩ |
    ⟨-, -, hcmd, hconf, -⟩
  · exact absurd hr (by decide)
  · exact absurd hr (by decide)
  · exact absurd hr (by decide)
  · exact absurd h0 hp
  · exact absurd h0 hp
  · exact h
  · simp [hcmd, hconf] at hr

/-- A read-only register ignores a write: it is none of those a write acts on. -/
theorem writeReg_of_readOnly {r : Reg} (hr : r = .id ∨ 0x080 ≤ r.addr) (v : Word) (s : State) :
    writeReg r v s = s := by
  have hconf : r.isConfig = false := by
    rw [Bool.eq_false_iff, ne_eq, isConfig_iff]
    rcases hr with rfl | hr
    · decide
    · omega
  have hctrl : r ≠ .ctrl := by rintro rfl; revert hr; decide
  have hstatus : r ≠ .status := by rintro rfl; revert hr; decide
  have hcmd : r ≠ .cmd := by rintro rfl; revert hr; decide
  simp [writeReg, hctrl, hstatus, hcmd, hconf]

/-- Settles O14: where the write lands decides, and only CMD, the configuration registers and the buffers look at
BUSY. -/
theorem writesWhileBusy : Obligations.WritesWhileBusy := by
  refine fun s => ⟨fun hp => ⟨fun r v hr => ?_, fun a v b i ht => ?_⟩, fun v => ⟨hostWrite_reg .ctrl v s,
    hostWrite_reg .status v s⟩, fun r v hr => ?_, fun a v hlt h4 hr => ?_⟩
  · rw [hostWrite_reg, writeReg_of_busy (by rwa [isConfig_iff]) hp]
  · have hbusy : s.busy = true := Option.isSome_iff_ne_none.mpr hp
    simp [hostWrite, ht, hbusy]
  · rw [hostWrite_reg, writeReg_of_readOnly hr]
  · simp [hostWrite, HostData.width, resolve_reserved _ hlt h4 hr]

/-! ## Buffer windows of an idle block -/

/-- Byte `k` of the bytes a write stores is lane `k` of its datum (20_memory.md R53). -/
theorem lanes_getD {v : HostData} {k : Nat} (hk : k < v.width.bytes) : v.lanes.getD k 0 = laneOf v k := by
  cases v with
  | byte v =>
    obtain rfl : k = 0 := by simpa [HostData.width, Width.bytes] using hk
    simp [HostData.lanes, laneOf, HostData.asWord, BitVec.extractLsb'_setWidth_of_le, BitVec.extractLsb'_eq_self]
  | half v =>
    obtain rfl | rfl : k = 0 ∨ k = 1 := by simp only [HostData.width, Width.bytes] at hk; omega
    all_goals simp [HostData.lanes, laneOf, HostData.asWord, BitVec.extractLsb'_setWidth_of_le]
  | word v =>
    obtain rfl | rfl | rfl | rfl : k = 0 ∨ k = 1 ∨ k = 2 ∨ k = 3 := by
      simp only [HostData.width, Width.bytes] at hk; omega
    all_goals rfl

/-- Lane `k` of what a read returns is byte `k` above its index (20_memory.md R53). -/
theorem laneOf_lanesAt (rd : Nat → Byte) (i : Nat) {n : Width} {k : Nat} (hk : k < n.bytes) :
    laneOf (lanesAt rd i n) k = rd (i + k) := by
  have h0 := (rd i).isLt
  have h1 := (rd (i + 1)).isLt
  have h2 := (rd (i + 2)).isLt
  have h3 := (rd (i + 3)).isLt
  cases n with
  | w8 =>
    obtain rfl : k = 0 := by simpa [Width.bytes] using hk
    simp [lanesAt, laneOf, HostData.asWord, BitVec.extractLsb'_setWidth_of_le, BitVec.extractLsb'_eq_self]
  | w16 =>
    obtain rfl | rfl : k = 0 ∨ k = 1 := by simp only [Width.bytes] at hk; omega
    all_goals
      apply BitVec.eq_of_toNat_eq
      simp only [lanesAt, laneOf, HostData.asWord, toNat_extract, toNat_setWidth_word, toNat_append_eq_add,
        Nat.add_zero]
      omega
  | w32 =>
    obtain rfl | rfl | rfl | rfl : k = 0 ∨ k = 1 ∨ k = 2 ∨ k = 3 := by simp only [Width.bytes] at hk; omega
    all_goals
      apply BitVec.eq_of_toNat_eq
      simp only [lanesAt, laneOf, HostData.asWord, toNat_extract, toNat_append_eq_add, Nat.add_zero]
      omega

/-- A buffer write to an idle block stores its bytes (20_memory.md R53). -/
theorem hostWrite_bytes_idle {s : State} {a : HostAddr} {v : HostData} {b : BufSel} {i : Nat} (hp : s.pend = none)
    (ht : resolve s.params a v.width = .bytes b i) : hostWrite a v s = s.storeBytes b i v.lanes := by
  simp [hostWrite, ht, State.busy, hp]

/-- A buffer read of an idle block returns the bytes from its index up (20_memory.md R53). -/
theorem hostRead_bytes_idle {s : State} {a : HostAddr} {n : Width} {b : BufSel} {i : Nat} (hp : s.pend = none)
    (ht : resolve s.params a n = .bytes b i) : hostRead a n s = reply (lanesAt (s.byteAt b) i n) s :=
  hostRead_of_exact ht nofun (unspecifiedRead_idle hp _)

theorem storeBytes_pend (s : State) (b : BufSel) (i : Nat) (bs : List Byte) : (s.storeBytes b i bs).pend = s.pend := by
  cases b <;> rfl

/-- No register holds a buffer byte. -/
theorem storeBytes_sameRegs (s : State) (b : BufSel) (i : Nat) (bs : List Byte) :
    SameRegs [] s (s.storeBytes b i bs) := by
  intro r _
  cases b <;> rfl

theorem storeBytes_sameOwn (s : State) (b : BufSel) (i : Nat) (bs : List Byte) :
    SameOwn s (s.storeBytes b i bs) := by
  cases b <;> exact ⟨rfl, rfl, rfl, rfl, rfl, rfl, rfl⟩

/-- Settles O18: an aligned access inside a window reaches its byte of the buffer, where a write stores the lanes of
its datum and a read collects them. -/
theorem bufferAccessIsLittleEndian : Obligations.BufferAccessIsLittleEndian := by
  intro s b i hl hp hi
  refine ⟨fun v hn => ⟨_, hostWrite_bytes_idle hp (resolve_window hl b hi hn), fun k hk => ?_, fun c j hout => ?_,
    storeBytes_sameRegs s b i _, (storeBytes_pend s b i _).trans hp, storeBytes_sameOwn s b i _⟩,
    fun n hn => ⟨_, width_lanesAt _ i n, hostRead_bytes_idle hp (resolve_window hl b hi hn),
      fun k hk => laneOf_lanesAt _ i hk⟩⟩
  · rw [byteAt_storeBytes, lanes_length, if_pos ⟨rfl, by omega, by omega⟩, Nat.add_sub_cancel_left, lanes_getD hk]
  · rw [byteAt_storeBytes, lanes_length, if_neg]
    rintro ⟨rfl, hlo, hhi⟩
    rcases hout with hc | hj | hj
    · exact hc rfl
    · omega
    · omega

/-- The two bytes of a big-endian field. -/
theorem be16At_eq_append_iff (rd : Nat → Byte) (i : Nat) (hi lo : Byte) :
    be16At rd i = hi ++ lo ↔ rd i = hi ∧ rd (i + 1) = lo := by
  simp only [be16At, ← BitVec.toNat_inj, toNat_append_eq_add]
  omega

/-- Settles O19: the window's lanes put the field's first byte, 0x08, lowest. -/
theorem mixedWidthRead : Obligations.MixedWidthRead := by
  intro s hl hp hfield
  obtain ⟨h12, h13⟩ : s.byteAt .tx 12 = 0x08 ∧ s.byteAt .tx 13 = 0x00 :=
    (be16At_eq_append_iff _ 12 0x08 0x00).mp hfield
  have hi : 12 < s.params.bufBytes := by have := hl.1; omega
  have hread : ∀ n : Width, 12 % n.bytes = 0 → hostRead 0x200C n s = reply (lanesAt (s.byteAt .tx) 12 n) s :=
    fun n hn => hostRead_bytes_idle hp (resolve_window hl .tx hi hn)
  constructor
  · rw [hread .w16 rfl, lanesAt, h12, h13]
    rfl
  · rw [hread .w32 rfl, lanesAt, h12, h13]
    rfl

end Sys2Proof.Machine
end

section
/-! PROOF. Turns of the host: a step that is not the engine's performs the next input (20_memory.md R62), and while a
command is pending no turn reaches what it will read (44_control.md R170). -/

namespace Sys2Proof.Machine

/-! ## One turn -/

/-- With no input to come, a host turn only passes (log 4). -/
theorem step_of_no_input {s : State} (h : s.pend = none ∨ s.engineWait ≠ 0) (hi : s.hostIn = []) :
    step s = .next { s with engineWait := s.engineWait - 1 } := by
  simp only [step_of_not_due h, hostTurn, takeInput, hi]

/-- A read of STATUS is exact, busy or not. -/
theorem hostRead_statusAddr (s : State) :
    hostRead statusAddr .w32 s = reply (.word (readReg .status s)) s :=
  hostRead_reg (unspecifiedRead_status s)

/-- `wait` on an idle block reads STATUS and is done (30_encoding.md R76). -/
theorem performInput_wait_idle {s : State} (hp : s.pend = none) :
    performInput .wait s = reply (.word (readReg .status s)) s := by
  simp [performInput, State.busy, hp, hostRead_statusAddr]

/-- `wait` while BUSY reads STATUS and stands again at the head of the inputs (30_encoding.md R76). -/
theorem performInput_wait_busy {s : State} (hp : s.pend ≠ none) :
    performInput .wait s = reply (.word (readReg .status s)) { s with hostIn := .wait :: s.hostIn } := by
  have hbusy : s.busy = true := Option.isSome_iff_ne_none.mpr hp
  simp only [performInput, hbusy, if_true, hostRead_statusAddr]
  rfl

/-- Settles O60: a step whose engine step is not due is one turn of the host, by the next input or by none. -/
theorem hostTurnPerformsNextInput : Obligations.HostTurnPerformsNextInput :=
  ⟨fun _ _ _ h hi => step_of_input h hi, fun _ h hi => step_of_no_input h hi, fun _ _ _ => rfl, fun _ _ _ => rfl,
    fun _ hp => performInput_wait_idle hp, fun _ hp => performInput_wait_busy hp⟩

/-! ## What an input leaves to come -/

theorem hostRead_hostIn (a : HostAddr) (n : Width) (s : State) : (hostRead a n s).hostIn = s.hostIn := by
  obtain ⟨_, _, _, h, -⟩ := hostRead_shape a n s
  rw [h]

theorem writeReg_hostIn (r : Reg) (v : Word) (s : State) : (writeReg r v s).hostIn = s.hostIn := by
  rcases writeReg_cases r v s with ⟨-, -, h⟩ | ⟨-, -, h⟩ | ⟨-, h⟩ | ⟨-, -, h⟩ | ⟨-, -, h⟩ | ⟨-, -, h⟩ |
    ⟨-, -, -, -, h⟩ <;> rw [h] <;> rfl

theorem hostWrite_hostIn (a : HostAddr) (v : HostData) (s : State) : (hostWrite a v s).hostIn = s.hostIn := by
  rcases hostWrite_cases a v s with ⟨-, h⟩ | ⟨-, h⟩ | ⟨r, -, h⟩ | ⟨_, _, -, -, h⟩ | ⟨b, _, -, -, h⟩ <;> rw [h]
  · exact writeReg_hostIn r _ s
  · cases b <;> rfl

/-- An input leaves the inputs to come as they are, but for `wait`, which may stand again before them. -/
theorem performInput_hostIn (e : Input) (s : State) :
    (performInput e s).hostIn = s.hostIn ∨ (e = .wait ∧ (performInput e s).hostIn = .wait :: s.hostIn) := by
  cases e with
  | read a n => exact .inl (hostRead_hostIn a n s)
  | write a v => exact .inl (hostWrite_hostIn a v s)
  | hwReset => exact .inl rfl
  | wait =>
    by_cases hp : s.pend = none
    · exact .inl (by rw [performInput_wait_idle hp]; rfl)
    · exact .inr ⟨rfl, by rw [performInput_wait_busy hp]; rfl⟩

/-- The next `k` inputs reset nothing. -/
def NoResetWithin (k : Nat) (es : List Input) : Prop := ∀ e ∈ es.take k, e.resets = false

theorem noResetWithin_cons {k : Nat} {e : Input} {es : List Input} :
    NoResetWithin (k + 1) (e :: es) ↔ e.resets = false ∧ NoResetWithin k es := by
  simp [NoResetWithin]

theorem NoResetWithin.mono {j k : Nat} {es : List Input} (h : NoResetWithin k es) (hjk : j ≤ k) :
    NoResetWithin j es :=
  fun e he => h e (List.take_subset_take_left es hjk he)

/-- If no reset stands in the next `k` inputs, none does after the first of them: a `wait` that stands again is no
reset. -/
theorem NoResetWithin.performInput {k : Nat} {e : Input} {s : State} (h : NoResetWithin k s.hostIn) :
    NoResetWithin k (performInput e s).hostIn := by
  rcases performInput_hostIn e s with hin | ⟨-, hin⟩ <;> rw [hin]
  · exact h
  · cases k with
    | zero => intro e he; simp at he
    | succ k => exact noResetWithin_cons.mpr ⟨rfl, h.mono (Nat.le_succ k)⟩

/-! ## Turns while a command is pending -/

namespace PendingFrame

theorem trans {s t u : State} (h : PendingFrame s t) (h' : PendingFrame t u) : PendingFrame s u where
  params := h'.params.trans h.params
  pend := h'.pend.trans h.pend
  engineWait := h'.engineWait.trans h.engineWait
  lastOp := h'.lastOp.trans h.lastOp
  epoch := h'.epoch.trans h.epoch
  rx := h'.rx.trans h.rx
  tx := h'.tx.trans h.tx
  regs := fun r hr => (h'.regs r hr).trans (h.regs r hr)

/-- The inputs to come are not among what a pending command reads. -/
theorem atInput (s : State) (es : List Input) :
    PendingFrame { s with engineWait := s.engineWait - 1 } (atInput s es) :=
  ⟨rfl, rfl, rfl, rfl, rfl, rfl, rfl, fun _ hr => readReg_congr hr rfl rfl rfl rfl rfl rfl⟩

/-- A frame but for the engine's delay, which is set on both sides. -/
theorem setEngineWait {s t : State} (h : PendingFrame s t) (n : Nat) :
    PendingFrame { s with engineWait := n } { t with engineWait := n } where
  params := h.params
  pend := h.pend
  engineWait := rfl
  lastOp := h.lastOp
  epoch := h.epoch
  rx := h.rx
  tx := h.tx
  regs := fun r hr => by
    have hs : ∀ u : State, readReg r { u with engineWait := n } = readReg r u :=
      fun u => readReg_congr hr rfl rfl rfl rfl rfl rfl
    rw [hs, hs, h.regs r hr]

end PendingFrame

/-- One turn while a command waits: the delay counts down, what the command will read stays, and one input less can
reset the block. -/
theorem step_waiting {k : Nat} {s : State} (hp : s.pend ≠ none) (hw : s.engineWait = k + 1)
    (hin : NoResetWithin (k + 1) s.hostIn) :
    ∃ t, step s = .next t ∧ PendingFrame { s with engineWait := k } t ∧ NoResetWithin k t.hostIn := by
  have hw0 : s.engineWait ≠ 0 := by omega
  have hk : s.engineWait - 1 = k := by omega
  by_cases hes : s.hostIn = []
  · refine ⟨_, step_of_no_input (.inr hw0) hes, ?_, ?_⟩
    · rw [hk]
      exact ⟨rfl, rfl, rfl, rfl, rfl, rfl, rfl, fun _ _ => rfl⟩
    · simp [NoResetWithin, hes]
  · obtain ⟨e, es, hes⟩ := List.exists_cons_of_ne_nil hes
    rw [hes, noResetWithin_cons] at hin
    obtain ⟨he, hrest⟩ := hin
    have hframe : PendingFrame (atInput s es) (performInput e (atInput s es)) := performInput_pending hp he
    refine ⟨_, step_of_input (.inr hw0) hes, ?_, NoResetWithin.performInput hrest⟩
    rw [← hk]
    exact (PendingFrame.atInput s es).trans hframe

/-- The turns of a whole delay, by induction on it, lead to the pending command's engine step and keep what it will
read. -/
theorem runs_waiting {k : Nat} {s : State} (hp : s.pend ≠ none) (hw : s.engineWait = k)
    (hin : NoResetWithin k s.hostIn) : ∃ t, Runs k s t ∧ PendingFrame { s with engineWait := 0 } t := by
  induction k generalizing s with
  | zero =>
    refine ⟨s, runs_zero.mpr rfl, ?_⟩
    rw [← hw]
    exact ⟨rfl, rfl, rfl, rfl, rfl, rfl, rfl, fun _ _ => rfl⟩
  | succ k ih =>
    obtain ⟨u, hstep, hsu, hin'⟩ := step_waiting hp hw hin
    obtain ⟨t, hrun, hut⟩ := ih (hsu.pend ▸ hp) hsu.engineWait hin'
    exact ⟨t, runs_succ.mpr ⟨u, hstep, hrun⟩, (hsu.setEngineWait 0).trans hut⟩

/-- Settles O11: the frame of the whole delay, field by field. -/
theorem operandsStableWhilePending : Obligations.OperandsStableWhilePending := by
  intro s w hp hin
  obtain ⟨t, hrun, hf⟩ := runs_waiting (by simp [hp]) rfl hin
  refine ⟨t, hrun, hf.pend.trans hp, hf.engineWait, hf.params, fun r hr => ?_, ?_, ?_, hf.lastOp⟩
  · exact (hf.regs r hr).trans (readReg_congr hr rfl rfl rfl rfl rfl rfl)
  · exact byteAt_congr (b := .rx) hf.rx hf.epoch
  · exact byteAt_congr (b := .tx) hf.tx hf.epoch

end Sys2Proof.Machine
end

section
/-! PROOF. The invariant's base case (70_reset_and_hazards.md R200, R201). -/

namespace Sys2Proof.Machine

/-- A block right after reset is idle and holds nothing the invariant could object to. -/
theorem resetWith_inv {p : Config.Params} (hp : p.Legal) : (State.resetWith p).Inv where
  legal := hp
  rx := ⟨(reset_canonical p).1, rfl⟩
  tx := ⟨(reset_canonical p).2, rfl⟩
  pending := nofun
  idle := fun _ => rfl
  txLen := .inl rfl
  latch := consistent_cleared _

/-- Settles O54: the default parameters are a legal choice of them. -/
theorem invariantAtReset : Obligations.InvariantAtReset :=
  ⟨resetWith_inv (by decide), fun _ hp => resetWith_inv hp⟩

end Sys2Proof.Machine
end

section
/-! PROOF. The encoding (30_encoding.md R70 to R75): decoding and encoding are inverse to each other, a word is legal
exactly when it fits a row of the opcode table, and the words the assembler spells. -/

namespace Sys2Proof
open Machine

/-! ## Round trips -/

theorem decodeWord_encode {i : Instr} (h : WellFormed i) : decodeWord (encode i) = .ok i :=
  decodeWord_of_fields (rsvField_encode i) (opField_encode i) (bufField_encode i)
    ((lenField_encode i).trans (Nat.mod_eq_of_lt (Nat.lt_succ_of_le h)))

theorem wellFormed_of_decodeWord {w : Word} {i : Instr} (h : decodeWord w = .ok i) : WellFormed i := by
  obtain ⟨-, -, -, hlen⟩ := decodeWord_ok h
  rw [WellFormed, ← hlen]
  exact Nat.le_of_lt_succ (lenField_lt w)

theorem encode_of_decodeWord {w : Word} {i : Instr} (h : decodeWord w = .ok i) : encode i = w := by
  obtain ⟨hrsv, hop, hbuf, hlen⟩ := decodeWord_ok h
  apply word_eq_of_fields
  · rw [lenField_encode, ← hlen, Nat.mod_eq_of_lt (lenField_lt w)]
  · rw [rsvField_encode, hrsv]
  · rw [bufField_encode, hbuf]
  · rw [opField_encode, hop]

/-- Settles O1: the four fields of an encoding are those of its command, and the decoder reads only these. -/
theorem decodeOfEncode : Obligations.DecodeOfEncode := fun _ h => decodeWord_encode h

/-- Settles O2: a legal word has the four fields of the command it decodes to, so it is that command's encoding. -/
theorem encodeOfDecode : Obligations.EncodeOfDecode :=
  fun _ _ h => ⟨wellFormed_of_decodeWord h, encode_of_decodeWord h⟩

/-! ## The rows of the opcode table -/

theorem exists_row (i : Instr) : ∃ r ∈ opcodeRows, r.mnemonic = i.mnemonic := by
  cases i <;> simp [opcodeRows, Instr.mnemonic]

theorem row_eq_of_mnemonic_eq : ∀ r ∈ opcodeRows, ∀ q ∈ opcodeRows, r.mnemonic = q.mnemonic → r = q := by decide

theorem fits_iff (r : OpcodeRow) (w : Word) : r.fits w = true ↔ w &&& r.mask = r.bits := by simp [OpcodeRow.fits]

/-- The per-command laws, for whichever command it is. -/
theorem fits_encode_iff (i : Instr) {r : OpcodeRow} (hr : r ∈ opcodeRows) :
    r.fits (encode i) = true ↔ r.mnemonic = i.mnemonic := by
  cases i with
  | nop len => exact Laws.EncodingFitsItsRow.nop len r hr
  | csum buf len => exact Laws.EncodingFitsItsRow.csum buf len r hr
  | encodeUdp len => exact Laws.EncodingFitsItsRow.encodeUdp len r hr
  | decode len => exact Laws.EncodingFitsItsRow.decode len r hr
  | arpHandle len => exact Laws.EncodingFitsItsRow.arpHandle len r hr
  | matchUdp len => exact Laws.EncodingFitsItsRow.matchUdp len r hr

/-- What a row fixes: every mask covers OP and RSV, and the one that leaves BUF open is CSUM's. -/
theorem row_fields : ∀ r ∈ opcodeRows,
    opField r.mask = BitVec.allOnes 4 ∧ (opField r.bits).toNat ≤ 5 ∧
    rsvField r.mask = BitVec.allOnes 11 ∧ rsvField r.bits = 0 ∧
    (bufField r.mask = 1 ∧ bufField r.bits = 0 ∨ opField r.bits = 1) := by decide

theorem legal_of_fits {w : Word} {r : OpcodeRow} (hr : r ∈ opcodeRows) (hfit : r.fits w = true) :
    ∃ i, decodeWord w = .ok i := by
  obtain ⟨hopMask, hop, hrsvMask, hrsv, hbuf⟩ := row_fields r hr
  obtain ⟨opAnd, bufAnd, rsvAnd⟩ := fields_and w r.mask
  rw [(fits_iff r w).1 hfit] at opAnd bufAnd rsvAnd
  have hopEq : opField w = opField r.bits := by rw [opAnd, hopMask, BitVec.and_allOnes]
  have hrsvEq : rsvField w = rsvField r.bits := by rw [rsvAnd, hrsvMask, BitVec.and_allOnes]
  refine (decodeWord_legal w).2 ⟨hrsvEq.trans hrsv, hopEq ▸ hop, fun hw => ?_⟩
  rcases hbuf with ⟨hmask, hbits⟩ | hone
  · rw [hw, hmask, hbits] at bufAnd
    exact absurd bufAnd (by decide)
  · exact hopEq.trans hone

/-- A word that fits a row is the encoding of a command of that row (30_encoding.md R73). -/
theorem decodeWord_of_fits {w : Word} {r : OpcodeRow} (hr : r ∈ opcodeRows) (hfit : r.fits w = true) :
    ∃ i, decodeWord w = .ok i ∧ i.mnemonic = r.mnemonic := by
  obtain ⟨i, hi⟩ := legal_of_fits hr hfit
  rw [← encode_of_decodeWord hi, fits_encode_iff i hr] at hfit
  exact ⟨i, hi, hfit.symm⟩

theorem row_of_decodeWord {w : Word} {i : Instr} (h : decodeWord w = .ok i) :
    ∃ r ∈ opcodeRows, r.mnemonic = i.mnemonic ∧ r.fits w = true := by
  obtain ⟨r, hr, hmn⟩ := exists_row i
  exact ⟨r, hr, hmn, encode_of_decodeWord h ▸ (fits_encode_iff i hr).2 hmn⟩

/-- Settles O4: a word that fits two rows decodes to one command, whose mnemonic both rows bear. -/
theorem opcodeRowsDisjoint : Obligations.OpcodeRowsDisjoint := by
  intro w r hr q hq hfitR hfitQ
  obtain ⟨i, hi⟩ := legal_of_fits hr hfitR
  rw [← encode_of_decodeWord hi] at hfitR hfitQ
  exact row_eq_of_mnemonic_eq r hr q hq
    (((fits_encode_iff i hr).1 hfitR).trans ((fits_encode_iff i hq).1 hfitQ).symm)

/-! ## Legality of a word -/

theorem bufField_eq_one_iff (w : Word) : bufField w = 1 ↔ w.getLsbD 4 = true := by
  rw [BitVec.eq_of_getLsbD_eq_iff]
  simp [bufField]

/-- The three conditions of 30_encoding.md R73, bit by bit as the rule has them. -/
theorem decodeWord_legal_bits (w : Word) :
    (∃ i, decodeWord w = .ok i) ↔
      w.extractLsb' 0 4 ≤ 0x5#4 ∧ w.extractLsb' 5 11 = 0 ∧ (w.getLsbD 4 = false ∨ w.extractLsb' 0 4 = 0x1) := by
  have hbuf : (bufField w = 1 → opField w = 1) ↔ w.getLsbD 4 = false ∨ opField w = 1 := by
    rw [bufField_eq_one_iff, imp_iff_not_or, Bool.not_eq_true]
  rw [decodeWord_legal, hbuf, and_left_comm]
  rfl

/-- The low half of a word holds OP, BUF and RSV. -/
theorem fields_of_low_half {v w : Word} (h : v.extractLsb' 0 16 = w.extractLsb' 0 16) :
    opField v = opField w ∧ bufField v = bufField w ∧ rsvField v = rsvField w := by
  have hfield (lo n : Nat) (hn : lo + n ≤ 16) : v.extractLsb' lo n = w.extractLsb' lo n := by
    have := congrArg (BitVec.extractLsb' lo n) h
    rwa [BitVec.extractLsb'_extractLsb'_of_le hn, BitVec.extractLsb'_extractLsb'_of_le hn] at this
  exact ⟨hfield 0 4 (by decide), hfield 4 1 (by decide), hfield 5 11 (by decide)⟩

theorem legal_congr {v w : Word} (h : v.extractLsb' 0 16 = w.extractLsb' 0 16) :
    (∃ i, decodeWord v = .ok i) ↔ ∃ i, decodeWord w = .ok i := by
  obtain ⟨hop, hbuf, hrsv⟩ := fields_of_low_half h
  rw [decodeWord_legal, decodeWord_legal, hop, hbuf, hrsv]

/-- The engine's step on an illegal word is a completion and nothing else (44_control.md R166). -/
theorem step_of_illegal {s : State} {w : Word} (hp : s.pend = some w) (hw : s.engineWait = 0)
    (hill : ¬ ∃ i, decodeWord w = .ok i) : step s = .next (complete .illegalCmd s) := by
  rw [step_of_due hp hw, engineStep]
  cases hd : decodeWord w with
  | ok i => exact absurd ⟨i, hd⟩ hill
  | error why => rfl

/-- Settles O3: legality by the fields, the rows by the round trip through `encode`, and an illegal word's step. -/
theorem legalCommandWords : Obligations.LegalCommandWords := by
  intro w
  refine ⟨decodeWord_legal_bits w, fun i hi => ?_, fun r hr hfit => ?_, fun s hp hw hill => ?_,
    fun v hv => legal_congr hv⟩
  · obtain ⟨r, hr, hmn, hfit⟩ := row_of_decodeWord hi
    exact ⟨r, hr, hmn, (fits_iff r w).1 hfit⟩
  · exact decodeWord_of_fits hr ((fits_iff r w).2 hfit)
  · exact ⟨_, step_of_illegal hp hw hill, complete_effect .illegalCmd s, byteAt_complete .illegalCmd s .rx,
      byteAt_complete .illegalCmd s .tx⟩

/-! ## The words of the spec and of the assembler -/

/-- Settles O5: seven closed words, decoded by evaluation. -/
theorem specWordsDecode : Obligations.SpecWordsDecode := by
  unfold Obligations.SpecWordsDecode
  decide

/-- A command word as the assembler writes it: LEN shifted to the high half, over BUF and OP (30_encoding.md R75). -/
theorem encode_eq_shiftLeft_or (i : Instr) :
    encode i = BitVec.ofNat 32 i.len <<< 16 ||| BitVec.ofNat 32 (i.bufBit.toNat * 16 + i.opcode.toNat) := by
  have hop := i.opcode.isLt
  have hbuf := i.bufBit.isLt
  have hhigh : (BitVec.ofNat 32 i.len <<< 16).toNat = (i.len % 65536) <<< 16 := by
    rw [BitVec.toNat_shiftLeft, BitVec.toNat_ofNat, Nat.shiftLeft_eq, Nat.shiftLeft_eq]
    omega
  have hlow : (BitVec.ofNat 32 (i.bufBit.toNat * 16 + i.opcode.toNat)).toNat =
      i.bufBit.toNat * 16 + i.opcode.toNat := by
    rw [BitVec.toNat_ofNat]
    omega
  apply BitVec.eq_of_toNat_eq
  rw [BitVec.toNat_or, hhigh, hlow, ← Nat.shiftLeft_add_eq_or_of_lt (by omega), toNat_encode, Nat.shiftLeft_eq,
    Nat.add_assoc]

theorem assemble_of_wellFormed {c : AsmCommand} (h : WellFormed c.instr) :
    assemble c = some (BitVec.ofNat 32 c.instr.len <<< 16 |||
      BitVec.ofNat 32 (c.instr.bufBit.toNat * 16 + c.instr.opcode.toNat)) := by
  rw [assemble, if_pos h, encode_eq_shiftLeft_or]

theorem assemble_of_too_long {c : AsmCommand} (h : 65535 < c.instr.len) : assemble c = none :=
  if_neg (Nat.not_le_of_lt h)

/-- Settles O6: each mnemonic's word is its length over its BUF and OP, and the refusal is by the length alone. -/
theorem assemblerWords : Obligations.AssemblerWords := by
  refine ⟨by decide, by decide, by decide, fun len => ⟨fun h => ?_, fun h => ?_⟩⟩
  · exact ⟨assemble_of_wellFormed h, assemble_of_wellFormed h, assemble_of_wellFormed h, assemble_of_wellFormed h⟩
  · exact ⟨assemble_of_too_long h, assemble_of_too_long h, assemble_of_too_long h, assemble_of_too_long h⟩

end Sys2Proof
end

section
/-! PROOF. The checksum of a byte string as arithmetic (40_checksum.md R110 to R116): its word sum, the folded sum that
the fold loop reaches, and the laws that follow from the two. -/

namespace Sys2Proof.Machine

/-! ## The word sum -/

/-- The unbounded sum S of the words of a byte string (40_checksum.md R114). -/
def wordSum (bs : List Byte) : Nat := ((wordsOf bs).map BitVec.toNat).sum

/-- The 16-bit word of two bytes, as a number. -/
theorem bytePair_toNat (hi lo : Byte) : (hi ++ lo : Half).toNat = hi.toNat * 256 + lo.toNat :=
  toNat_append_eq_add hi lo

@[simp] theorem wordSum_nil : wordSum [] = 0 := rfl

@[simp] theorem wordSum_singleton (b : Byte) : wordSum [b] = b.toNat * 256 := by
  simp [wordSum, wordsOf, bytePair_toNat]

@[simp] theorem wordSum_cons_cons (hi lo : Byte) (bs : List Byte) :
    wordSum (hi :: lo :: bs) = hi.toNat * 256 + lo.toNat + wordSum bs := by
  simp [wordSum, wordsOf, bytePair_toNat]

theorem wordSum_append {pre : List Byte} (post : List Byte) (h : pre.length % 2 = 0) :
    wordSum (pre ++ post) = wordSum pre + wordSum post := by
  simp [wordSum, wordsOf_append post h]

@[simp] theorem be16_length (v : Half) : (be16 v).length = 2 := rfl

theorem wordSum_be16 (v : Half) : wordSum (be16 v) = v.toNat := by
  rw [be16, wordSum, wordsOf, wordsOf, join16, List.map_singleton, List.sum_singleton]

theorem wordSum_le (bs : List Byte) : wordSum bs ≤ (bs.length + 1) / 2 * 65535 :=
  wordsOf_length bs ▸ sum_le_length_mul (wordsOf bs)

/-- The 32-bit accumulator holds the word sum (40_checksum.md R112). -/
theorem sumWords_wordsOf_toNat {bs : List Byte} (h : bs.length ≤ 131074) :
    (sumWords (wordsOf bs)).toNat = wordSum bs :=
  sumWords_toNat _ (by rw [wordsOf_length]; omega)

/-- The word sum of a slice is the sum of the words at their indices. -/
theorem wordSum_sliceAt (rd : Nat → Byte) (off n : Nat) : wordSum (sliceAt rd off n) = sliceSum rd off n := by
  induction n using Nat.twoStepInduction generalizing off with
  | zero => rfl
  | one => simp [sliceAt, sliceSum, sliceWord]
  | more n ih _ =>
    have hword (k : Nat) : sliceWord rd off (n + 2) (k + 1) = sliceWord rd (off + 2) n k := by
      rw [sliceWord, sliceWord, show off + 2 * (k + 1) = off + 2 + 2 * k by omega]
      simp only [show 2 * (k + 1) + 1 < n + 2 ↔ 2 * k + 1 < n by omega]
    have hlen : (n + 2 + 1) / 2 = (n + 1) / 2 + 1 := by omega
    calc wordSum (sliceAt rd off (n + 2))
      _ = (rd off).toNat * 256 + (rd (off + 1)).toNat + sliceSum rd (off + 2) n := by
        rw [sliceAt, sliceAt, wordSum_cons_cons, ih]
      _ = sliceWord rd off (n + 2) 0 + sliceSum rd (off + 2) n := by simp [sliceWord]
      _ = sliceSum rd off (n + 2) := by
        simp [sliceSum, hlen, List.range_succ_eq_map, Function.comp_def, hword]

/-! ## The folded sum -/

theorem foldedSum_le (S : Nat) : foldedSum S ≤ 65535 := by
  rw [foldedSum]
  split <;> omega

theorem foldedSum_mod (S : Nat) : foldedSum S % 65535 = S % 65535 := by
  rw [foldedSum]
  split <;> omega

theorem foldedSum_eq_zero_iff (S : Nat) : foldedSum S = 0 ↔ S = 0 := by
  rw [foldedSum]
  split <;> omega

/-- Its bound, its residue and whether it is 0 determine the folded sum (40_checksum.md R114). -/
theorem eq_foldedSum {F S : Nat} (hle : F ≤ 65535) (hmod : F % 65535 = S % 65535) (hzero : F = 0 ↔ S = 0) :
    F = foldedSum S := by
  have h1 := foldedSum_le S
  have h2 := foldedSum_mod S
  have h3 := foldedSum_eq_zero_iff S
  omega

/-- The fold loop ends in the folded sum. -/
theorem foldCarries_two_toNat (sum : Word) : (foldCarries 2 sum).toNat = foldedSum sum.toNat := by
  obtain ⟨hlt, hmod, hzero⟩ := foldCarries_two sum
  exact eq_foldedSum (by omega) hmod hzero

/-- The checksum is the complement of the folded word sum (40_checksum.md R114). -/
theorem checksumOf_toNat {bs : List Byte} (h : bs.length ≤ 131074) :
    (checksumOf bs).toNat = 65535 - foldedSum (wordSum bs) := by
  rw [checksumOf_toNat_eq, foldCarries_two_toNat, sumWords_wordsOf_toNat h]

/-! ## Bounds (40_checksum.md R112, R113) -/

/-- Settles O35: at most 32768 words of at most 65535 each stay below 2^32. -/
theorem checksumSumNeverWraps : Obligations.ChecksumSumNeverWraps := by
  intro bs h
  have hsum := sumWords_wordsOf_toNat (bs := bs) (by omega)
  have hle := wordSum_le bs
  exact ⟨by rw [wordsOf_length]; omega, hsum, by omega⟩

/-- The second round of the fold loop does something only after a carry. -/
theorem foldCarries_two_eq_one {sum : Word} (h : (foldOnce sum).toNat < 65536) :
    foldCarries 2 sum = foldCarries 1 sum := by
  by_cases hs : sum.toNat < 65536
  · rw [foldCarries_of_small hs, foldCarries_of_small hs]
  · have hlarge : 65536 ≤ sum.toNat := by omega
    rw [foldCarries_succ_of_large hlarge, foldCarries_succ_of_large hlarge, foldCarries_of_small h,
      foldCarries_of_small h]

/-- Settles O36: the bounds by the arithmetic of one fold, the end of the loop by that of two. -/
theorem checksumFoldsAtMostTwice : Obligations.ChecksumFoldsAtMostTwice := by
  refine ⟨fun bs h => ?_, fun sum => ⟨?_, fun k => ?_, fun hne => ?_⟩, by decide, by decide, by decide, by decide⟩
  · obtain ⟨-, -, hle⟩ := checksumSumNeverWraps bs h
    have hfirst := foldOnce_toNat (sumWords (wordsOf bs))
    have hsecond := foldOnce_toNat (foldOnce (sumWords (wordsOf bs)))
    omega
  · exact Nat.le_of_lt_succ (foldCarries_two sum).1
  · rw [foldCarries_add, foldCarries_of_small (foldCarries_two sum).1]
  · by_contra hle
    exact hne (foldCarries_two_eq_one (by omega))

/-! ## The result (40_checksum.md R114) -/

/-- Settles O37: F is the folded word sum, and the two extreme results are its values 0 and 0xFFFF. -/
theorem checksumResultLaw : Obligations.ChecksumResultLaw := by
  intro bs h
  have hc := checksumOf_toNat (bs := bs) (by omega)
  have hle := foldedSum_le (wordSum bs)
  have hmod := foldedSum_mod (wordSum bs)
  have hzero := foldedSum_eq_zero_iff (wordSum bs)
  refine ⟨foldedSum (wordSum bs), hc, hle, hmod, hzero, ?_, ?_⟩
  · rw [← sum_eq_zero_iff, ← BitVec.toNat_inj, hc]
    show 65535 - _ = 65535 ↔ wordSum bs = 0
    omega
  · rw [← BitVec.toNat_inj, hc]
    show 65535 - _ = 0 ↔ 0 < wordSum bs ∧ wordSum bs % 65535 = 0
    omega

/-! ## Verification (40_checksum.md R115) -/

/-- Adding the complement of the folded sum makes the folded sum 0xFFFF. -/
theorem foldedSum_add_complement (S : Nat) : foldedSum (S + (65535 - foldedSum S)) = 65535 := by
  have hle := foldedSum_le S
  have hmod := foldedSum_mod S
  have hzero := foldedSum_eq_zero_iff S
  exact (eq_foldedSum (by omega) (by omega) (by omega)).symm

/-- The word sum around a two-byte field at an even offset. -/
theorem wordSum_field {pre : List Byte} (v : Half) (post : List Byte) (h : pre.length % 2 = 0) :
    wordSum (pre ++ be16 v ++ post) = wordSum pre + wordSum post + v.toNat := by
  rw [List.append_assoc, wordSum_append _ h, wordSum_append _ (by rw [be16_length]), wordSum_be16]
  omega

/-- Settles O38: writing the checksum adds the complement of the folded sum to the word sum. -/
theorem checksumVerificationLaw : Obligations.ChecksumVerificationLaw := by
  intro pre post hpre _ hlen
  have hfield (v : Half) : (pre ++ be16 v ++ post).length ≤ 131074 := by
    rw [List.length_append, List.length_append, be16_length]
    omega
  apply BitVec.eq_of_toNat_eq
  rw [checksumOf_toNat (hfield _), wordSum_field _ _ hpre, checksumOf_toNat (hfield _), wordSum_field _ _ hpre]
  show 65535 - foldedSum (wordSum pre + wordSum post + (65535 - foldedSum (wordSum pre + wordSum post + 0))) = 0
  rw [Nat.add_zero, foldedSum_add_complement]

/-- Settles O41: the header is built around its checksum field, which stands at an even offset. -/
theorem encodedHeaderVerifies : Obligations.EncodedHeaderVerifies := by
  intro n s _ hmtu hbuf
  rw [readReg, toNat_setWidth_word] at hmtu
  refine ⟨_, execEncodeUdp_ok hmtu hbuf, ?_⟩
  obtain ⟨pre, post, hpre, hpost, hsplit⟩ := datagramIpHeader_split s.cfg n
  rw [checksumAt, sliceAt_encodeUdpDone, datagramChecksum, hsplit, hsplit]
  exact checksumVerificationLaw pre post (by omega) (by omega) (by omega)

/-! ## Byte swapping (40_checksum.md R116) -/

theorem swapPairs_length (bs : List Byte) : (swapPairs bs).length = bs.length := by
  induction bs using wordsOf.induct with
  | case1 => rfl
  | case2 b => rfl
  | case3 hi lo bs ih => simp [swapPairs, ih]

/-- Exchanging the bytes of each pair multiplies the word sum by 256 modulo 0xFFFF, and keeps whether it is 0. -/
theorem wordSum_swapPairs {bs : List Byte} (h : bs.length % 2 = 0) :
    wordSum (swapPairs bs) % 65535 = 256 * wordSum bs % 65535 ∧ (wordSum (swapPairs bs) = 0 ↔ wordSum bs = 0) := by
  induction bs using wordsOf.induct with
  | case1 => simp [swapPairs]
  | case2 b => simp at h
  | case3 hi lo bs ih =>
    simp only [List.length_cons] at h
    obtain ⟨hmod, hzero⟩ := ih (by omega)
    simp only [swapPairs, wordSum_cons_cons]
    omega

theorem swapHalves_toNat (v : Half) : (swapHalves v).toNat = v.toNat % 256 * 256 + v.toNat / 256 := by
  have := v.isLt
  rw [swapHalves, toNat_append_eq_add, toNat_extract, toNat_extract]
  omega

/-- Exchanging the halves of the folded sum multiplies it by 256 modulo 0xFFFF. -/
theorem foldedSum_swap {S T : Nat} (hmod : T % 65535 = 256 * S % 65535) (hzero : T = 0 ↔ S = 0) :
    foldedSum T = foldedSum S % 256 * 256 + foldedSum S / 256 := by
  have hle := foldedSum_le S
  have hS := foldedSum_mod S
  have hS0 := foldedSum_eq_zero_iff S
  exact (eq_foldedSum (by omega) (by omega) (by omega)).symm

theorem checksumOf_swapPairs {bs : List Byte} (heven : bs.length % 2 = 0) (hlen : bs.length ≤ 131074) :
    checksumOf (swapPairs bs) = swapHalves (checksumOf bs) := by
  obtain ⟨hmod, hzero⟩ := wordSum_swapPairs heven
  have hle := foldedSum_le (wordSum bs)
  apply BitVec.eq_of_toNat_eq
  rw [swapHalves_toNat, checksumOf_toNat (by rwa [swapPairs_length]), checksumOf_toNat hlen,
    foldedSum_swap hmod hzero]
  omega

/-- An odd last byte is already paired with a zero (40_checksum.md R110). -/
theorem wordsOf_append_zero {bs : List Byte} (h : bs.length % 2 = 1) : wordsOf (bs ++ [0x00]) = wordsOf bs := by
  induction bs using wordsOf.induct with
  | case1 => simp at h
  | case2 b => rfl
  | case3 hi lo bs ih =>
    simp only [List.length_cons] at h
    simp only [List.cons_append, wordsOf, ih (by omega)]

/-- Settles O39: an even string by the word sum times 256, an odd one with its pad byte as an even one, and the string
of one byte 0x01 as the one that fails when the pad byte stays. -/
theorem checksumByteSwapLaw : Obligations.ChecksumByteSwapLaw := by
  refine ⟨fun bs heven hlen => checksumOf_swapPairs heven (by omega), fun bs hodd hlen => ?_,
    [0x01], by decide, by decide⟩
  have hpad : (bs ++ [0x00]).length = bs.length + 1 := List.length_append
  rw [checksumOf_swapPairs (by omega) (by omega), checksumOf, wordsOf_append_zero hodd, ← checksumOf]

end Sys2Proof.Machine
end

section
/-! PROOF. The command CSUM (40_checksum.md R111): the words that spell it, its result and its frame. -/

namespace Sys2Proof.Machine

/-- The words that fit a row of the opcode table spell what the legal words of its mnemonic decode to. -/
theorem spelledBy_of_row {r : OpcodeRow} {mk : Word → Instr} (hr : r ∈ opcodeRows)
    (hmn : ∀ w, (mk w).mnemonic = r.mnemonic)
    (hmk : ∀ w i, decodeWord w = .ok i → i.mnemonic = r.mnemonic → i = mk w) : SpelledBy r.bits r.mask mk := by
  intro w
  rw [← fits_iff]
  constructor
  · intro hfit
    obtain ⟨i, hi, him⟩ := decodeWord_of_fits hr hfit
    rw [hi, hmk w i hi him]
  · intro hi
    obtain ⟨q, hq, hqm, hfit⟩ := row_of_decodeWord hi
    rwa [row_eq_of_mnemonic_eq q hq r hr (hqm.trans (hmn w))] at hfit

theorem csum_spelledBy :
    SpelledBy 0x00000001 0x0000FFEF (fun w => .csum (if w.getLsbD 4 then .tx else .rx) (lenField w)) := by
  apply spelledBy_of_row (r := ⟨"CSUM", 0x00000001, 0x0000FFEF⟩) (by decide) (fun _ => rfl)
  intro w i hi hmn
  obtain ⟨-, -, hbuf, hlen⟩ := decodeWord_ok hi
  have hbit := bufField_eq_one_iff w
  rw [hbuf] at hbit
  cases i with
  | csum b n => cases b <;> simp_all [Instr.bufBit, Instr.len]
  | _ => simp [Instr.mnemonic] at hmn

/-- CSUM_RESULT is read by its own register only. -/
theorem readReg_setCsumResult {r : Reg} (hr : r ≠ .csumResult) (c : Half) (s : State) :
    readReg r { s with csumResult := c } = readReg r s := by
  cases r
  case csumResult => exact absurd rfl hr
  all_goals rfl

/-- A completion after a write to CSUM_RESULT. -/
theorem complete_setCsumResult_effect (c : Half) (s : State) :
    Effect .noError [.csumResult] s (complete .noError { s with csumResult := c }) where
  completed := ⟨rfl, rfl, rfl, rfl, rfl, rfl⟩
  own := ⟨rfl, rfl, rfl, rfl, rfl, rfl, rfl⟩
  regs r hr := by
    obtain ⟨hstatus, hcsum⟩ : r ∉ [Reg.status] ∧ r ≠ .csumResult := by simpa using hr
    rw [(complete_effect .noError { s with csumResult := c }).regs r hstatus, readReg_setCsumResult hcsum]

/-- Settles O34: the completion alone past the buffer's end, and the folded word sum of the slice inside it. -/
theorem csumResult : Obligations.CsumResult := by
  refine ⟨csum_spelledBy, fun b n s ⟨_, hmax, _, _⟩ => ?_⟩
  rw [show (readReg .csumOff s).toNat = s.cfg.csumOff.toNat from toNat_setWidth_word _]
  by_cases hrange : s.params.bufBytes < s.cfg.csumOff.toNat + n
  · exact ⟨_, execCsum_range hrange, byteAt_complete _ s .rx, byteAt_complete _ s .tx,
      fun hin => absurd hin (by omega), fun _ => complete_effect .range s⟩
  · have hin : s.cfg.csumOff.toNat + n ≤ s.params.bufBytes := by omega
    refine ⟨_, execCsum_ok hin, byteAt_congr (b := .rx) rfl rfl, byteAt_congr (b := .tx) rfl rfl,
      fun _ => ⟨complete_setCsumResult_effect _ s, ?_⟩, fun h => absurd h hrange⟩
    have hlen : (sliceAt (s.byteAt b) s.cfg.csumOff.toNat n).length ≤ 131074 := by rw [sliceAt_length]; omega
    calc (readReg .csumResult (complete .noError
            { s with csumResult := checksumAt s b s.cfg.csumOff.toNat n })).toNat
      _ = (checksumAt s b s.cfg.csumOff.toNat n).toNat := toNat_setWidth_word _
      _ = 0xFFFF - foldedSum (sliceSum (s.byteAt b) s.cfg.csumOff.toNat n) := by
        rw [checksumAt, checksumOf_toNat hlen, wordSum_sliceAt]

end Sys2Proof.Machine
end

section
/-! PROOF. DECODE as a command (41_codec.md R124, R125): the words that spell it, and what it leaves alone. -/

namespace Sys2Proof.Machine

/-! ## Spelling -/

/-- A row whose mask leaves only LEN open is spelled by one command, with the word's LEN. -/
theorem spelledBy_of_row_len {r : OpcodeRow} {mk : Nat → Instr} (hr : r ∈ opcodeRows)
    (hmn : ∀ n, (mk n).mnemonic = r.mnemonic) (hmk : ∀ i, i.mnemonic = r.mnemonic → i = mk i.len) :
    SpelledBy r.bits r.mask (fun w => mk (lenField w)) := by
  refine spelledBy_of_row hr (fun w => hmn (lenField w)) fun w i hi him => ?_
  obtain ⟨-, -, -, hlen⟩ := decodeWord_ok hi
  rw [hlen]
  exact hmk i him

theorem decode_spelledBy : SpelledBy 0x00000003 0x0000FFFF (fun w => .decode (lenField w)) := by
  apply spelledBy_of_row_len (r := ⟨"DECODE", 0x00000003, 0x0000FFFF⟩) (by decide) (fun _ => rfl)
  intro i hi
  cases i with
  | decode n => rfl
  | _ => simp [Instr.mnemonic] at hi

/-! ## What a new latch changes -/

/-- A completion reads its code in STATUS[7:4]. -/
@[simp] theorem statusCode_complete (c : ErrCode) (s : State) : statusCode (complete c s) = errorNumber c := by
  rw [statusCode, readReg, statusWord_err, errBits_toNat, complete_err]

/-- The registers of the latched decode read the latch and nothing else. -/
theorem readReg_eq_of_latch_eq {s t : State} {r : Reg} (hr : r ∈ latchRegs) (h : s.latch = t.latch) :
    readReg r s = readReg r t := by
  cases r <;> simp [latchRegs] at hr <;> simp only [readReg, h]

/-- The latch is read by its own registers only. -/
theorem readReg_setLatch {r : Reg} (hr : r ∉ latchRegs) (l : Latch) (s : State) :
    readReg r { s with latch := l } = readReg r s := by
  cases r <;> simp [latchRegs] at hr <;> rfl

/-- A completion after a new latch. -/
theorem complete_setLatch_effect (l : Latch) (s : State) :
    Effect .noError latchRegs s (complete .noError { s with latch := l }) where
  completed := ⟨rfl, rfl, rfl, rfl, rfl, rfl⟩
  own := ⟨rfl, rfl, rfl, rfl, rfl, rfl, rfl⟩
  regs r hr := by
    obtain ⟨hstatus, hlatch⟩ : r ∉ [Reg.status] ∧ r ∉ latchRegs := by simpa using hr
    rw [(complete_effect .noError { s with latch := l }).regs r hstatus, readReg_setLatch hlatch]

/-- Settles O43: past the buffer DECODE is a completion alone, and inside it one after a new latch. -/
theorem decodeCompletes : Obligations.DecodeCompletes := by
  refine ⟨decode_spelledBy, fun len s => ?_⟩
  by_cases hrange : s.params.bufBytes < len
  · exact ⟨_, execDecode_range hrange, byteAt_complete _ s .rx, byteAt_complete _ s .tx,
      fun hin => absurd hrange (by omega), fun _ => complete_effect .range s⟩
  · exact ⟨_, execDecode_ok (by omega), byteAt_congr (b := .rx) rfl rfl, byteAt_congr (b := .tx) rfl rfl,
      fun _ => complete_setLatch_effect _ s, fun h => absurd h hrange⟩

end Sys2Proof.Machine
end

section
/-! PROOF. The latch DECODE leaves in each class (41_codec.md R125 to R128), as its registers read. -/

namespace Sys2Proof.Machine

/-! ## What the registers of a latch read -/

theorem readsMac_ethDst {t : State} {v : Mac} (h : t.latch.ethDst = .ofMac v) : ReadsMac .ethDstHi .ethDstLo t v := by
  simp only [ReadsMac, readReg, h, ofMac_words]

theorem readsMac_ethSrc {t : State} {v : Mac} (h : t.latch.ethSrc = .ofMac v) : ReadsMac .ethSrcHi .ethSrcLo t v := by
  simp only [ReadsMac, readReg, h, ofMac_words]

theorem readsMac_arpSha {t : State} {v : Mac} (h : t.latch.arpSha = .ofMac v) : ReadsMac .arpShaHi .arpShaLo t v := by
  simp only [ReadsMac, readReg, h, ofMac_words]

theorem readsMac_arpTha {t : State} {v : Mac} (h : t.latch.arpTha = .ofMac v) : ReadsMac .arpThaHi .arpThaLo t v := by
  simp only [ReadsMac, readReg, h, ofMac_words]

theorem readsZero_arpRegs {t : State} (h : t.latch.NoArp) : ReadsZero arpRegs t := by
  obtain ⟨h1, h2, h3, h4, h5, h6⟩ := h
  simp [ReadsZero, arpRegs, readReg, MacReg.zero, h1, h2, h3, h4, h5, h6]

theorem readsZero_udpRegs {t : State} (h1 : t.latch.udpSport = 0) (h2 : t.latch.udpDport = 0)
    (h3 : t.latch.udpLen = 0) : ReadsZero udpRegs t := by
  simp [ReadsZero, udpRegs, readReg, h1, h2, h3]

/-- The registers of a latch that nothing of an IPv4 frame has filled. -/
theorem readsZero_of_noIpv4 {t : State} (h : t.latch.NoIpv4) :
    ReadsZero ipv4Regs t ∧ ReadsZero udpRegs t ∧ readReg .payLen t = 0 := by
  obtain ⟨hsrc, hdst, hproto, htot, hsport, hdport, hlen, hpay⟩ := h
  refine ⟨?_, readsZero_udpRegs hsport hdport hlen, ?_⟩
  · simp [ReadsZero, ipv4Regs, readReg, hsrc, hdst, hproto, htot]
  · simp [readReg, hpay]

theorem readsZero_cleared {t : State} (h : t.latch = .cleared) : ReadsZero latchRegs t := by
  simp [ReadsZero, latchRegs, readReg, h, Latch.cleared, MacReg.zero, RxClass.bits]

/-! ## The two classes of R125 -/

/-- The clipped payload length fits its register. -/
theorem toNat_clippedPayLen (udpLen cap : Half) :
    (BitVec.ofNat 16 (min (udpLen.toNat - 8) cap.toNat)).toNat = min (udpLen.toNat - 8) cap.toNat := by
  have := cap.isLt
  rw [BitVec.toNat_ofNat]
  omega

/-- Settles O44: each register reads its field of the latch a UDP frame leaves. -/
theorem decodeUdpFrame : Obligations.DecodeUdpFrame := by
  intro len s hlen ⟨h42, htype, hvihl, hproto, hmin, hend⟩
  refine ⟨_, execDecode_ok hlen, statusCode_complete _ _, ?_⟩
  rw [decodeFrame_udp s.cfg.rxCap h42 htype hvihl hproto hmin hend]
  refine ⟨rfl, rfl, rfl, ⟨?_, readsMac_ethDst rfl, readsMac_ethSrc rfl⟩, ⟨?_, rfl, rfl, rfl⟩, ⟨rfl, rfl, rfl⟩, ?_,
    readsZero_arpRegs ⟨rfl, rfl, rfl, rfl, rfl, rfl⟩⟩
  · rw [htype]; rfl
  · rw [hvihl, hproto]; rfl
  · simp only [readReg, complete_latch, toNat_setWidth_word, toNat_clippedPayLen]

/-- Settles O45: each register reads its field of the latch an ARP frame leaves. -/
theorem decodeArpFrame : Obligations.DecodeArpFrame := by
  intro len s hlen ⟨h42, htype⟩
  refine ⟨_, execDecode_ok hlen, statusCode_complete _ _, ?_⟩
  rw [decodeFrame_arp s.cfg.rxCap h42 htype]
  refine ⟨rfl, rfl, ⟨?_, readsMac_ethDst rfl, readsMac_ethSrc rfl⟩, rfl, rfl, readsMac_arpSha rfl, rfl,
    readsMac_arpTha rfl, rfl, readsZero_of_noIpv4 ⟨rfl, rfl, rfl, rfl, rfl, rfl, rfl, rfl⟩⟩
  rw [htype]; rfl

/-! ## Every other frame -/

/-- The latch of a frame of which only the Ethernet header is read (41_codec.md R125). -/
def ethLatch (rd : Nat → Byte) : Latch :=
  { Latch.cleared with
    ethDst := .ofMac (be48At rd 0), ethSrc := .ofMac (be48At rd 6), ethertype := be16At rd 12 }

/-- The latch of an IPv4 frame of which nothing beyond the IPv4 header is read. -/
def ipv4Latch (rd : Nat → Byte) : Latch :=
  { ethLatch rd with
    ipProto := rd 14 ++ rd 23, ipTotlen := be16At rd 16, ipSrc := be32At rd 26, ipDst := be32At rd 30 }

/-- The latch of an IPv4 frame whose UDP length fails the check. -/
def badUdpLatch (rd : Nat → Byte) : Latch :=
  { ipv4Latch rd with udpSport := be16At rd 34, udpDport := be16At rd 36, udpLen := be16At rd 38 }

/-- DECODE of a frame that holds an Ethernet header, by its EtherType. -/
theorem decodeFrame_of_ethHeader {rd : Nat → Byte} {len : Nat} (cap : Half) (h14 : 14 ≤ len) :
    decodeFrame rd len cap =
      if be16At rd 12 = 0x0806 then decodeArp rd len (ethLatch rd)
      else if be16At rd 12 = 0x0800 then decodeIpv4 rd len cap (ethLatch rd) else ethLatch rd :=
  if_neg (Nat.not_lt.mpr h14)

theorem decodeIpv4_short {rd : Nat → Byte} {len : Nat} {cap : Half} {eth : Latch} (h : len < 34) :
    decodeIpv4 rd len cap eth = eth := if_pos h

/-- DECODE of a frame that holds an IPv4 header, by what the header says. -/
theorem decodeIpv4_of_ipv4Header {rd : Nat → Byte} {len : Nat} (cap : Half) (h34 : 34 ≤ len) :
    decodeIpv4 rd len cap (ethLatch rd) =
      if 42 ≤ len ∧ rd 14 = 0x45 ∧ rd 23 = 17 then decodeUdp rd len cap (ipv4Latch rd) else ipv4Latch rd := by
  refine (if_neg (Nat.not_lt.mpr h34)).trans ?_
  by_cases hvihl : rd 14 = 0x45
  case neg => exact (if_pos hvihl).trans (if_neg fun ⟨_, h, _⟩ => hvihl h).symm
  refine (if_neg (not_not.mpr hvihl)).trans ?_
  by_cases hproto : rd 23 = 17
  case neg => exact (if_pos hproto).trans (if_neg fun ⟨_, _, h⟩ => hproto h).symm
  refine (if_neg (not_not.mpr hproto)).trans ?_
  by_cases h42 : len < 42
  · exact (if_pos h42).trans (if_neg fun ⟨h, _⟩ => absurd h42 (Nat.not_lt.mpr h)).symm
  · exact (if_neg h42).trans (if_pos ⟨Nat.le_of_not_lt h42, hvihl, hproto⟩).symm

/-- Everything DECODE can latch of a frame that is neither UDP nor ARP: as much as its length and types allow. -/
theorem decodeFrame_unhandled_cases {rd : Nat → Byte} {len : Nat} (cap : Half) (hudp : ¬ UdpFrame rd len)
    (harp : ¬ ArpFrame rd len) :
    (len < 14 ∧ decodeFrame rd len cap = .cleared) ∨
    (14 ≤ len ∧ ¬ (34 ≤ len ∧ be16At rd 12 = 0x0800) ∧ decodeFrame rd len cap = ethLatch rd) ∨
    ((34 ≤ len ∧ be16At rd 12 = 0x0800) ∧ ¬ (42 ≤ len ∧ rd 14 = 0x45 ∧ rd 23 = 17) ∧
      decodeFrame rd len cap = ipv4Latch rd) ∨
    (be16At rd 12 = 0x0800 ∧ (42 ≤ len ∧ rd 14 = 0x45 ∧ rd 23 = 17) ∧ decodeFrame rd len cap = badUdpLatch rd) := by
  by_cases h14 : len < 14
  · exact .inl ⟨h14, decodeFrame_short cap h14⟩
  have h14 : 14 ≤ len := Nat.le_of_not_lt h14
  rw [decodeFrame_of_ethHeader cap h14]
  by_cases htypeArp : be16At rd 12 = 0x0806
  · -- an ARP frame that is too short
    have h42 : len < 42 := Nat.lt_of_not_le fun h => harp ⟨h, htypeArp⟩
    rw [if_pos htypeArp]
    exact .inr <| .inl ⟨h14, by simp [htypeArp], if_pos h42⟩
  rw [if_neg htypeArp]
  by_cases htypeIp : be16At rd 12 = 0x0800
  case neg =>
    rw [if_neg htypeIp]
    exact .inr <| .inl ⟨h14, fun ⟨_, h⟩ => htypeIp h, rfl⟩
  rw [if_pos htypeIp]
  by_cases h34 : len < 34
  · exact .inr <| .inl ⟨h14, fun h => by omega, decodeIpv4_short h34⟩
  have h34 : 34 ≤ len := Nat.le_of_not_lt h34
  rw [decodeIpv4_of_ipv4Header cap h34]
  by_cases hhdr : 42 ≤ len ∧ rd 14 = 0x45 ∧ rd 23 = 17
  · -- a UDP header with a length that fails the check
    have hbad : (be16At rd 38).toNat < 8 ∨ 34 + (be16At rd 38).toNat > len := by
      obtain ⟨h42, hvihl, hproto⟩ := hhdr
      by_contra hok
      exact hudp ⟨h42, htypeIp, hvihl, hproto, by omega, by omega⟩
    rw [if_pos hhdr]
    exact .inr <| .inr <| .inr ⟨htypeIp, hhdr, if_pos hbad⟩
  · rw [if_neg hhdr]
    exact .inr <| .inr <| .inl ⟨⟨h34, htypeIp⟩, hhdr, rfl⟩

/-- Settles O46: in each case the registers read the latch that `decodeFrame_unhandled_cases` gives. -/
theorem decodeUnhandledFrame : Obligations.DecodeUnhandledFrame := by
  intro len s hlen hudp harp
  refine ⟨_, execDecode_ok hlen, statusCode_complete _ _, ?_⟩
  rcases decodeFrame_unhandled_cases s.cfg.rxCap hudp harp with
    ⟨h14, h⟩ | ⟨h14, hip, h⟩ | ⟨hip, hhdr, h⟩ | ⟨htype, hhdr, h⟩ <;> rw [h] <;>
    refine ⟨rfl, rfl, readsZero_arpRegs ⟨rfl, rfl, rfl, rfl, rfl, rfl⟩, ?_⟩
  · -- below 14 bytes
    rw [if_neg (by omega), if_neg fun h => by omega, if_neg fun h => by omega]
    obtain ⟨hip, hudp, -⟩ := readsZero_of_noIpv4 (t := complete .noError { s with latch := .cleared })
      ⟨rfl, rfl, rfl, rfl, rfl, rfl, rfl, rfl⟩
    exact ⟨readsZero_cleared rfl, hip, hudp⟩
  · -- the Ethernet header only
    rw [if_pos h14, if_neg hip, if_neg fun ⟨_, htype, _⟩ => hip ⟨by omega, htype⟩]
    obtain ⟨hip, hudp, -⟩ := readsZero_of_noIpv4 (t := complete .noError { s with latch := ethLatch (s.byteAt .rx) })
      ⟨rfl, rfl, rfl, rfl, rfl, rfl, rfl, rfl⟩
    exact ⟨⟨rfl, readsMac_ethDst rfl, readsMac_ethSrc rfl⟩, hip, hudp⟩
  · -- the IPv4 header too
    rw [if_pos (by omega), if_pos hip, if_neg fun ⟨h42, _, hhead⟩ => hhdr ⟨h42, hhead⟩]
    exact ⟨⟨rfl, readsMac_ethDst rfl, readsMac_ethSrc rfl⟩, ⟨rfl, rfl, rfl, rfl⟩, readsZero_udpRegs rfl rfl rfl⟩
  · -- the UDP header too
    obtain ⟨h42, hvihl, hproto⟩ := hhdr
    rw [if_pos (by omega), if_pos ⟨by omega, htype⟩, if_pos ⟨h42, htype, hvihl, hproto⟩]
    exact ⟨⟨rfl, readsMac_ethDst rfl, readsMac_ethSrc rfl⟩, ⟨rfl, rfl, rfl, rfl⟩, rfl, rfl, rfl⟩

end Sys2Proof.Machine
end

section
/-! PROOF. What the latched decode depends on (41_codec.md R125 to R127): the frame's bytes and RX_CAP, and, of what the
block does, DECODE and the resets. -/

namespace Sys2Proof.Machine

/-! ## What DECODE reads -/

section
variable {rd rd' : Nat → Byte} {len : Nat} (h : ∀ i, i < len → rd i = rd' i)
include h

theorem be16At_eq_of_agree {i : Nat} (hi : i + 2 ≤ len) : be16At rd i = be16At rd' i :=
  be16At_congr fun _ _ => h _ (by omega)

theorem be32At_eq_of_agree {i : Nat} (hi : i + 4 ≤ len) : be32At rd i = be32At rd' i :=
  be32At_congr fun _ _ => h _ (by omega)

theorem be48At_eq_of_agree {i : Nat} (hi : i + 6 ≤ len) : be48At rd i = be48At rd' i :=
  be48At_congr fun _ _ => h _ (by omega)

theorem decodeArp_congr (eth : Latch) : decodeArp rd len eth = decodeArp rd' len eth := by
  unfold decodeArp
  split
  · rfl
  · rename_i h42
    have h42 : 42 ≤ len := Nat.le_of_not_lt h42
    rw [be16At_eq_of_agree h (i := 14) (by omega), be16At_eq_of_agree h (i := 16) (by omega), h 18 (by omega),
      h 19 (by omega), be16At_eq_of_agree h (i := 20) (by omega), be48At_eq_of_agree h (i := 22) (by omega),
      be32At_eq_of_agree h (i := 28) (by omega), be48At_eq_of_agree h (i := 32) (by omega),
      be32At_eq_of_agree h (i := 38) (by omega)]

theorem decodeUdp_congr (cap : Half) (ip : Latch) (h42 : 42 ≤ len) :
    decodeUdp rd len cap ip = decodeUdp rd' len cap ip := by
  unfold decodeUdp
  rw [be16At_eq_of_agree h (i := 34) (by omega), be16At_eq_of_agree h (i := 36) (by omega),
    be16At_eq_of_agree h (i := 38) (by omega)]

theorem ethLatch_congr (h14 : 14 ≤ len) : ethLatch rd = ethLatch rd' := by
  rw [ethLatch, ethLatch, be48At_eq_of_agree h (i := 0) (by omega), be48At_eq_of_agree h (i := 6) (by omega),
    be16At_eq_of_agree h (i := 12) (by omega)]

theorem ipv4Latch_congr (h34 : 34 ≤ len) : ipv4Latch rd = ipv4Latch rd' := by
  rw [ipv4Latch, ipv4Latch, ethLatch_congr h (by omega), h 14 (by omega), h 23 (by omega),
    be16At_eq_of_agree h (i := 16) (by omega), be32At_eq_of_agree h (i := 26) (by omega),
    be32At_eq_of_agree h (i := 30) (by omega)]

theorem decodeIpv4_congr (cap : Half) (h14 : 14 ≤ len) :
    decodeIpv4 rd len cap (ethLatch rd) = decodeIpv4 rd' len cap (ethLatch rd') := by
  by_cases h34 : len < 34
  · rw [decodeIpv4_short h34, decodeIpv4_short h34, ethLatch_congr h h14]
  have h34 : 34 ≤ len := Nat.le_of_not_lt h34
  rw [decodeIpv4_of_ipv4Header cap h34, decodeIpv4_of_ipv4Header cap h34, ← h 14 (by omega), ← h 23 (by omega),
    ipv4Latch_congr h h34]
  split
  · exact decodeUdp_congr h cap _ (by omega)
  · rfl

/-- DECODE of `len` bytes reads no byte from `len` on (41_codec.md R125, R127). -/
theorem decodeFrame_congr (cap : Half) : decodeFrame rd len cap = decodeFrame rd' len cap := by
  by_cases h14 : len < 14
  · rw [decodeFrame_short cap h14, decodeFrame_short cap h14]
  have h14 : 14 ≤ len := Nat.le_of_not_lt h14
  rw [decodeFrame_of_ethHeader cap h14, decodeFrame_of_ethHeader cap h14, decodeIpv4_congr h cap h14,
    ethLatch_congr h h14, be16At_eq_of_agree h (i := 12) (by omega), decodeArp_congr h]

end

/-- Settles O47: both blocks latch the decode of the same frame, clipped to the same RX_CAP. -/
theorem decodeDependsOnlyOnTheFrame : Obligations.DecodeDependsOnlyOnTheFrame := by
  intro len s u hparams hcap hlen hagree
  refine ⟨_, _, execDecode_ok hlen, execDecode_ok (hparams ▸ hlen), fun r hr => readReg_eq_of_latch_eq hr ?_⟩
  show decodeFrame (s.byteAt .rx) len s.cfg.rxCap = decodeFrame (u.byteAt .rx) len u.cfg.rxCap
  rw [decodeFrame_congr hagree, setWidth_word_inj.mp hcap]

/-! ## What changes the latch -/

/-- Of the inputs only a reset changes the latch, and it clears it. -/
theorem InputEffect.latch_ne {e : Input} {s t : State} (h : InputEffect e s t) (hne : t.latch ≠ s.latch) :
    e.resets = true ∧ t.latch = .cleared := by
  cases h with
  | hardReset he => exact ⟨by rw [he]; rfl, rfl⟩
  | softReset he => exact ⟨he, rfl⟩
  | @store _ _ b _ _ _ _ => cases b <;> exact absurd rfl hne
  | _ => exact absurd rfl hne

/-- Of the commands only a DECODE that fits the buffer changes the latch. -/
theorem exec_latch_ne {i : Instr} {s t : State} (h : exec i s = .next t) (hne : t.latch ≠ s.latch) :
    ∃ len, i = .decode len ∧ len ≤ s.params.bufBytes ∧ t.latch = decodeFrame (s.byteAt .rx) len s.cfg.rxCap := by
  obtain ⟨-, hdecode, -⟩ := onlyTheNamedCommandsWrite i s t h
  obtain ⟨len, rfl⟩ := hdecode hne
  by_cases hlen : len ≤ s.params.bufBytes
  · rw [execDecode_ok hlen] at h
    cases h
    exact ⟨len, rfl, hlen, rfl⟩
  · rw [execDecode_range (Nat.lt_of_not_le hlen)] at h
    cases h
    exact absurd rfl hne

/-- Settles O55: the engine's step changes the latch by a DECODE only, and a host turn by a reset only. -/
theorem latchChangesOnlyByDecodeOrReset : Obligations.LatchChangesOnlyByDecodeOrReset := by
  intro s t h hne
  rcases step_cases h with ⟨w, hp, hw, ⟨i, hi, he⟩ | ⟨_, -, rfl⟩⟩ | ⟨-, rfl⟩
  · obtain ⟨len, rfl, hlen, hlatch⟩ := exec_latch_ne he hne
    exact .inl ⟨w, len, hp, hw, hi, hlen, hlatch⟩
  · exact absurd rfl hne
  · rcases hostTurn_cases s with hidle | ⟨e, es, hin, he⟩
    · exact absurd (by rw [hidle]; rfl) hne
    · rw [hin, List.head?_cons]
      exact .inr ⟨e, rfl, he.latch_ne hne⟩

end Sys2Proof.Machine
end

section
/-! PROOF. Wire formats in a buffer (30_encoding.md R78 to R81): a list of bytes that stands in a buffer, the fields of
the headers where they stand, and the headers that ENCODE_UDP and ARP_HANDLE leave in TXBUF. -/

namespace Sys2Proof.Machine

/-! ## A list of bytes in a buffer -/

/-- The bytes `bs` stand in a buffer from index `i` up. -/
def StandsAt (rd : Nat → Byte) (i : Nat) (bs : List Byte) : Prop := sliceAt rd i bs.length = bs

theorem standsAt_nil (rd : Nat → Byte) (i : Nat) : StandsAt rd i [] := rfl

theorem standsAt_cons {rd : Nat → Byte} {i : Nat} {b : Byte} {bs : List Byte} :
    StandsAt rd i (b :: bs) ↔ rd i = b ∧ StandsAt rd (i + 1) bs := by
  simp only [StandsAt, List.length_cons, sliceAt, List.cons.injEq]

theorem standsAt_append {rd : Nat → Byte} {i : Nat} {as bs : List Byte} :
    StandsAt rd i (as ++ bs) ↔ StandsAt rd i as ∧ StandsAt rd (i + as.length) bs := by
  induction as generalizing i with
  | nil => simp [standsAt_nil]
  | cons a as ih =>
    rw [List.cons_append, standsAt_cons, standsAt_cons, ih, and_assoc, List.length_cons, Nat.add_assoc,
      Nat.add_comm 1]

theorem StandsAt.of_getD {rd : Nat → Byte} {i : Nat} {bs : List Byte}
    (h : ∀ k, k < bs.length → rd (i + k) = bs.getD k 0) : StandsAt rd i bs := by
  refine sliceAt_eq_of_getElem? fun k hk => ?_
  rw [h k hk, List.getD_eq_getElem?_getD, List.getElem?_eq_getElem hk, Option.getD_some]

/-- Bytes that stand in one buffer stand in another that agrees with it there. -/
theorem StandsAt.congr {rd rd' : Nat → Byte} {i : Nat} {bs : List Byte} (h : StandsAt rd i bs)
    (heq : ∀ k, k < bs.length → rd' (i + k) = rd (i + k)) : StandsAt rd' i bs :=
  (sliceAt_congr heq).trans h

theorem StandsAt.be16 {rd : Nat → Byte} {i : Nat} {v : Half} (h : StandsAt rd i (be16 v)) : be16At rd i = v := by
  simp only [Machine.be16, standsAt_cons] at h
  obtain ⟨h0, h1, -⟩ := h
  rw [be16At, h0, h1, join16]

theorem StandsAt.be32 {rd : Nat → Byte} {i : Nat} {v : Word} (h : StandsAt rd i (be32 v)) : be32At rd i = v := by
  simp only [Machine.be32, standsAt_cons] at h
  obtain ⟨h0, h1, h2, h3, -⟩ := h
  rw [be32At, h0, h1, h2, h3, join32]

theorem StandsAt.be48 {rd : Nat → Byte} {i : Nat} {v : Mac} (h : StandsAt rd i (be48 v)) : be48At rd i = v := by
  simp only [Machine.be48, standsAt_cons] at h
  obtain ⟨h0, h1, h2, h3, h4, h5, -⟩ := h
  rw [be48At, h0, h1, h2, h3, h4, h5, join48]

/-! ## Headers in a buffer -/

theorem StandsAt.ethHeader {rd : Nat → Byte} {i : Nat} {dst src : Mac} {etype : Half}
    (h : StandsAt rd i (ethHeader dst src etype)) :
    be48At rd i = dst ∧ be48At rd (i + 6) = src ∧ be16At rd (i + 12) = etype := by
  simp only [Machine.ethHeader, standsAt_append] at h
  obtain ⟨⟨hdst, hsrc⟩, htype⟩ := h
  exact ⟨hdst.be48, hsrc.be48, htype.be16⟩

theorem StandsAt.udpHeader {rd : Nat → Byte} {i : Nat} {sport dport length : Half}
    (h : StandsAt rd i (udpHeader sport dport length)) :
    be16At rd i = sport ∧ be16At rd (i + 2) = dport ∧ be16At rd (i + 4) = length ∧ be16At rd (i + 6) = 0 := by
  simp only [Machine.udpHeader, standsAt_append] at h
  obtain ⟨⟨⟨hs, hd⟩, hl⟩, hc⟩ := h
  exact ⟨hs.be16, hd.be16, hl.be16, hc.be16⟩

theorem StandsAt.ipv4Header {rd : Nat → Byte} {i : Nat} {totalLen ident checksum : Half} {src dst : Word}
    (h : StandsAt rd i (ipv4Header totalLen ident checksum src dst)) :
    rd i = 0x45 ∧ rd (i + 1) = 0 ∧ be16At rd (i + 2) = totalLen ∧ be16At rd (i + 4) = ident ∧
    be16At rd (i + 6) = 0 ∧ rd (i + 8) = 64 ∧ rd (i + 9) = 17 ∧ be16At rd (i + 10) = checksum ∧
    be32At rd (i + 12) = src ∧ be32At rd (i + 16) = dst := by
  simp only [Machine.ipv4Header, standsAt_append, standsAt_cons] at h
  obtain ⟨⟨⟨⟨⟨⟨⟨⟨hvihl, htos, -⟩, hlen⟩, hid⟩, hfrag⟩, httl, hproto, -⟩, hsum⟩, hsrc⟩, hdst⟩ := h
  exact ⟨hvihl, htos, hlen.be16, hid.be16, hfrag.be16, httl, hproto, hsum.be16, hsrc.be32, hdst.be32⟩

theorem StandsAt.arpReplyPacket {rd : Nat → Byte} {i : Nat} {sha tha : Mac} {spa tpa : Word}
    (h : StandsAt rd i (arpReplyPacket sha spa tha tpa)) :
    be16At rd i = 1 ∧ be16At rd (i + 2) = 0x0800 ∧ rd (i + 4) = 6 ∧ rd (i + 5) = 4 ∧ be16At rd (i + 6) = 2 ∧
    be48At rd (i + 8) = sha ∧ be32At rd (i + 14) = spa ∧ be48At rd (i + 18) = tha ∧ be32At rd (i + 24) = tpa := by
  simp only [Machine.arpReplyPacket, standsAt_append, standsAt_cons] at h
  obtain ⟨⟨⟨⟨⟨⟨⟨hhrd, hpro⟩, hhln, hpln, -⟩, hop⟩, hsha⟩, hspa⟩, htha⟩, htpa⟩ := h
  exact ⟨hhrd.be16, hpro.be16, hhln, hpln, hop.be16, hsha.be48, hspa.be32, htha.be48, htpa.be32⟩

theorem standsAt_datagramHeaders {rd : Nat → Byte} {c : ConfigRegs} {n : Nat} :
    StandsAt rd 0 (datagramHeaders c n) ↔
      StandsAt rd 0 (ethHeader c.dstMac.value c.localMac.value etypeIpv4) ∧
      StandsAt rd 14 (datagramIpHeader c n (datagramChecksum c n)) ∧
      StandsAt rd 34 (udpHeader c.localPort c.dstPort (BitVec.ofNat 16 (8 + n))) := by
  rw [datagramHeaders, standsAt_append, standsAt_append, and_assoc]
  rfl

theorem standsAt_arpReplyBytes {rd : Nat → Byte} {l : Latch} {c : ConfigRegs} :
    StandsAt rd 0 (arpReplyBytes l c) ↔
      StandsAt rd 0 (ethHeader l.arpSha.value c.localMac.value etypeArp) ∧
      StandsAt rd 14 (arpReplyPacket c.localMac.value c.localIp l.arpSha.value l.arpSpa) := by
  rw [arpReplyBytes, standsAt_append]
  rfl

/-! ## The frames left in TXBUF -/

theorem byteAt_encodeUdpDone_header (n : Nat) (s : State) {j : Nat} (hj : j < 42) :
    (encodeUdpDone n s).byteAt .tx j = (datagramHeaders s.cfg n).getD j 0 := by
  rw [byteAt_encodeUdpDone, if_neg (by omega), if_pos hj]

theorem byteAt_encodeUdpDone_padding {n : Nat} {s : State} {j : Nat} (hlo : 42 + n ≤ j) (hhi : j < s.params.minFrame) :
    (encodeUdpDone n s).byteAt .tx j = 0 := by
  rw [byteAt_encodeUdpDone, if_pos ⟨hlo, hhi⟩]

/-- The payload, and whatever lies past the padded frame, is left alone. -/
theorem byteAt_encodeUdpDone_unchanged {n : Nat} {s : State} {j : Nat} (hj : 42 ≤ j)
    (h : j < 42 + n ∨ s.params.minFrame ≤ j) : (encodeUdpDone n s).byteAt .tx j = s.byteAt .tx j := by
  rw [byteAt_encodeUdpDone, if_neg (by omega), if_neg (by omega)]

theorem standsAt_encodeUdpDone (n : Nat) (s : State) :
    StandsAt ((encodeUdpDone n s).byteAt .tx) 0 (datagramHeaders s.cfg n) := by
  refine .of_getD fun k hk => ?_
  rw [datagramHeaders_length] at hk
  rw [Nat.zero_add, byteAt_encodeUdpDone_header n s hk]

theorem standsAt_arpReplyDone (s : State) :
    StandsAt ((arpReplyDone s).byteAt .tx) 0 (arpReplyBytes s.latch s.cfg) := by
  refine .of_getD fun k hk => ?_
  rw [arpReplyBytes_length] at hk
  rw [Nat.zero_add, byteAt_arpReplyDone, if_neg (by omega), if_pos hk]

end Sys2Proof.Machine
end

section
/-! PROOF. ENCODE_UDP (41_codec.md R121): the words that spell it, its registers, its frame and its errors. -/

namespace Sys2Proof.Machine

theorem encodeUdp_spelledBy : SpelledBy 0x00000002 0x0000FFFF (fun w => .encodeUdp (lenField w)) := by
  apply spelledBy_of_row_len (r := ⟨"ENCODE_UDP", 0x00000002, 0x0000FFFF⟩) (by decide) (fun _ => rfl)
  intro i hi
  cases i with
  | encodeUdp n => rfl
  | _ => simp [Instr.mnemonic] at hi

/-- Of the registers only TX_LEN sees a frame built. -/
theorem readReg_buildFrame {r : Reg} (hr : r ≠ .txLen) (hdr : List Byte) (n : Nat) (s : State) :
    readReg r (buildFrame hdr n s) = readReg r s := by
  cases r
  case txLen => exact absurd rfl hr
  all_goals rfl

theorem encodeUdpDone_effect (n : Nat) (s : State) : Effect .noError [.txLen, .csumResult] s (encodeUdpDone n s) where
  completed := by constructor <;> simp
  own := by constructor <;> simp
  regs r hr := by
    obtain ⟨hstatus, htxLen, hcsum⟩ : r ∉ [Reg.status] ∧ r ≠ .txLen ∧ r ≠ .csumResult := by simpa using hr
    rw [(complete_effect .noError _).regs r hstatus, readReg_setCsumResult hcsum, readReg_buildFrame htxLen]

/-- A 48-bit name is the value of the register pair it reads. -/
theorem macOf_eq_value {hi lo : Reg} {s : State} {m : MacReg} (hhi : readReg hi s = m.hi.setWidth 32)
    (hlo : readReg lo s = m.lo) : macOf hi lo s = m.value := by
  rw [macOf, hhi, hlo, extract_setWidth_word, MacReg.value]

/-- The checksum ENCODE_UDP stores is that of the header's bytes with its field 0 (41_codec.md R121). -/
theorem datagramChecksum_eq_checksumAt {n : Nat} {s u : State}
    (hu : ∀ i, u.byteAt .tx i = if i = 24 ∨ i = 25 then 0 else (encodeUdpDone n s).byteAt .tx i) :
    datagramChecksum s.cfg n = checksumAt u .tx 14 20 := by
  obtain ⟨pre, post, hpre, -, hsplit⟩ := datagramIpHeader_split s.cfg n
  obtain ⟨-, hip, -⟩ := standsAt_datagramHeaders.mp (standsAt_encodeUdpDone n s)
  rw [hsplit, standsAt_append, standsAt_append, List.length_append, hpre, be16_length] at hip
  obtain ⟨⟨hfront, -⟩, hrest⟩ := hip
  have hzero : StandsAt (u.byteAt .tx) 14 (datagramIpHeader s.cfg n 0) := by
    rw [hsplit, standsAt_append, standsAt_append, List.length_append, hpre, be16_length]
    refine ⟨⟨hfront.congr fun k _ => ?_, ?_⟩, hrest.congr fun k _ => ?_⟩
    · rw [hu, if_neg (by omega)]
    · exact .of_getD fun k hk => by
        rw [be16_length] at hk
        rw [hu, if_pos (by omega)]
        obtain rfl | rfl : k = 0 ∨ k = 1 := by omega
        all_goals rfl
    · rw [hu, if_neg (by omega)]
  rw [checksumAt, datagramChecksum, ← datagramIpHeader_length s.cfg n 0, hzero]

/-- Settles O40: the headers stand at the front of TXBUF, so every field reads back, and the bytes after them are
padding or unchanged. -/
theorem encodeUdpResult : Obligations.EncodeUdpResult := by
  refine ⟨encodeUdp_spelledBy, fun n s hmtu => ?_, fun n s hmtu hbuf => ?_, fun n s hlegal hmtu hbuf => ?_⟩ <;>
    rw [readReg, toNat_setWidth_word] at hmtu
  · exact ⟨_, execEncodeUdp_mtu hmtu, complete_effect _ s, byteAt_complete _ s .rx, byteAt_complete _ s .tx⟩
  · exact ⟨_, execEncodeUdp_range hmtu hbuf, complete_effect _ s, byteAt_complete _ s .rx, byteAt_complete _ s .tx⟩
  have ⟨_, hmax, _, _⟩ := hlegal
  obtain ⟨heth, hip, hudp⟩ := standsAt_datagramHeaders.mp (standsAt_encodeUdpDone n s)
  obtain ⟨hdst, hsrc, htype⟩ := heth.ethHeader
  obtain ⟨hvihl, htos, hlen, hid, hfrag, httl, hproto, hsum, hipSrc, hipDst⟩ := hip.ipv4Header
  obtain ⟨hsport, hdport, hulen, husum⟩ := hudp.udpHeader
  refine ⟨encodeUdpDone n s, datagramChecksum s.cfg n, execEncodeUdp_ok hmtu hbuf, encodeUdpDone_effect n s,
    hdst.trans (macOf_eq_value rfl rfl).symm, hsrc.trans (macOf_eq_value rfl rfl).symm,
    htype, hvihl, htos, ?_, ?_, hfrag, httl, hproto, hsum, hipSrc, hipDst, ?_, ?_, ?_, husum, ?_, ?_,
    byteAt_congr (b := .rx) (by simp) (by simp), ?_, ?_, fun u hu => datagramChecksum_eq_checksumAt hu⟩
  · rw [hlen, BitVec.toNat_ofNat]; omega
  · rw [hid, readReg]
  · rw [hsport, readReg]
  · rw [hdport, readReg]
  · rw [hulen, BitVec.toNat_ofNat]; omega
  · exact fun i hlo hhi => byteAt_encodeUdpDone_padding hlo hhi
  · exact fun i hlo hout => byteAt_encodeUdpDone_unchanged hlo (by omega)
  · rw [readReg, toNat_setWidth_word, txLen_encodeUdpDone hlegal hbuf]
  · rw [readReg, complete_csumResult]

end Sys2Proof.Machine
end

section
/-! PROOF. What enters an encoded frame, and what another block decodes of a frame built in TXBUF (41_codec.md R122,
R130; 42_arp.md R141, R142). -/

namespace Sys2Proof.Machine

/-! ## The operands of ENCODE_UDP -/

/-- Two blocks whose ENCODE_UDP operands read alike build the same headers, and so the same checksum. -/
theorem datagram_congr {s u : State} (h : ∀ r ∈ encodeOperands, readReg r s = readReg r u) (n : Nat) :
    datagramHeaders s.cfg n = datagramHeaders u.cfg n ∧ datagramChecksum s.cfg n = datagramChecksum u.cfg n := by
  have hid : s.cfg.ipId = u.cfg.ipId := setWidth_word_inj.mp (h .ipId (by decide))
  have hlmHi : s.cfg.localMac.hi = u.cfg.localMac.hi := setWidth_word_inj.mp (h .localMacHi (by decide))
  have hlmLo : s.cfg.localMac.lo = u.cfg.localMac.lo := h .localMacLo (by decide)
  have hlip : s.cfg.localIp = u.cfg.localIp := h .localIp (by decide)
  have hlport : s.cfg.localPort = u.cfg.localPort := setWidth_word_inj.mp (h .localPort (by decide))
  have hdmHi : s.cfg.dstMac.hi = u.cfg.dstMac.hi := setWidth_word_inj.mp (h .dstMacHi (by decide))
  have hdmLo : s.cfg.dstMac.lo = u.cfg.dstMac.lo := h .dstMacLo (by decide)
  have hdip : s.cfg.dstIp = u.cfg.dstIp := h .dstIp (by decide)
  have hdport : s.cfg.dstPort = u.cfg.dstPort := setWidth_word_inj.mp (h .dstPort (by decide))
  simp only [datagramHeaders, datagramChecksum, datagramIpHeader, MacReg.value, hid, hlmHi, hlmLo, hlip, hlport,
    hdmHi, hdmLo, hdip, hdport, and_self]

/-- Settles O42: a byte of the frame is one of the headers', a payload byte, or padding. -/
theorem encodeUdpIgnoresBufferContents : Obligations.EncodeUdpIgnoresBufferContents := by
  intro n s u hparams hlegal hops hmtuS hmtuU hbuf
  rw [readReg, toNat_setWidth_word] at hmtuS hmtuU
  obtain ⟨hhdr, hsum⟩ := datagram_congr hops n
  refine ⟨encodeUdpDone n s, encodeUdpDone n u, execEncodeUdp_ok hmtuS hbuf,
    execEncodeUdp_ok hmtuU (hparams ▸ hbuf), ?_, ?_, fun i hi => ?_, fun hpay i hi => ?_⟩
  · simp only [readReg, complete_csumResult, hsum]
  · simp only [readReg, complete_txLen, buildFrame_txLen, hparams]
  · rw [byteAt_encodeUdpDone_header n s hi, byteAt_encodeUdpDone_header n u hi, hhdr]
  rw [readReg, toNat_setWidth_word, txLen_encodeUdpDone hlegal hbuf] at hi
  by_cases h42 : i < 42
  · rw [byteAt_encodeUdpDone_header n s h42, byteAt_encodeUdpDone_header n u h42, hhdr]
  by_cases hpad : 42 + n ≤ i
  · have hmin : i < s.params.minFrame := by omega
    rw [byteAt_encodeUdpDone_padding hpad hmin, byteAt_encodeUdpDone_padding hpad (hparams ▸ hmin)]
  · rw [byteAt_encodeUdpDone_unchanged (by omega) (by omega), byteAt_encodeUdpDone_unchanged (by omega) (by omega)]
    exact hpay i (by omega) (by omega)

/-! ## A frame received -/

theorem macOf_congr {hi lo hi' lo' : Reg} {s t : State} (hhi : readReg hi s = readReg hi' t)
    (hlo : readReg lo s = readReg lo' t) : macOf hi lo s = macOf hi' lo' t := by
  rw [macOf, macOf, hhi, hlo]

/-- What DECODE latches of a datagram that ENCODE_UDP built (41_codec.md R130). -/
theorem decodeFrame_datagramHeaders {rd : Nat → Byte} {c : ConfigRegs} {n len : Nat} {cap : Half}
    (h : StandsAt rd 0 (datagramHeaders c n)) (hlen : 42 + n ≤ len) (hn : n < 65528) (hcap : n ≤ cap.toNat) :
    decodeFrame rd len cap =
      { Latch.cleared with
        ethDst := c.dstMac, ethSrc := c.localMac, ethertype := 0x0800, ipProto := 0x4511,
        ipTotlen := BitVec.ofNat 16 (28 + n), ipSrc := c.localIp, ipDst := c.dstIp, udpSport := c.localPort,
        udpDport := c.dstPort, udpLen := BitVec.ofNat 16 (8 + n), payLen := BitVec.ofNat 16 n, rxClass := .udp } := by
  obtain ⟨heth, hip, hudp⟩ := standsAt_datagramHeaders.mp h
  obtain ⟨hdst, hsrc, htype⟩ := heth.ethHeader
  obtain ⟨hvihl, -, htot, -, -, -, hproto, -, hipSrc, hipDst⟩ := hip.ipv4Header
  obtain ⟨hsport, hdport, hulen, -⟩ := hudp.udpHeader
  have hulenNat : (BitVec.ofNat 16 (8 + n)).toNat = 8 + n := by rw [BitVec.toNat_ofNat]; omega
  have hpay : min (8 + n - 8) cap.toNat = n := by omega
  rw [decodeFrame_udp cap (by omega) htype hvihl hproto (by rw [hulen, hulenNat]; omega)
    (by rw [hulen, hulenNat]; omega), hdst, hsrc, htot, hipSrc, hipDst, hsport, hdport, hulen, hulenNat, hpay,
    ofMac_value, ofMac_value]

/-- Settles O48: the headers stand in the receiver's RXBUF, and the payload after them. -/
theorem encodeDecodeRoundTrip : Obligations.EncodeDecodeRoundTrip := by
  intro n s t u hlegal hmtu hbuf hexec hparams hcap hcopy
  rw [readReg, toNat_setWidth_word] at hmtu
  rw [readReg, toNat_setWidth_word] at hcap
  rw [execEncodeUdp_ok hmtu hbuf] at hexec
  obtain rfl : encodeUdpDone n s = t := Host.Outcome.next.inj hexec
  have ⟨_, hmax, _, hmin⟩ := hlegal
  have htxLen : (readReg .txLen (encodeUdpDone n s)).toNat = max (42 + n) s.params.minFrame :=
    (toNat_setWidth_word _).trans (txLen_encodeUdpDone hlegal hbuf)
  rw [htxLen] at hcopy ⊢
  have hframe : StandsAt (u.byteAt .rx) 0 (datagramHeaders s.cfg n) :=
    (standsAt_encodeUdpDone n s).congr fun k hk => hcopy _ (by rw [datagramHeaders_length] at hk; omega)
  refine ⟨_, execDecode_ok (by rw [hparams]; omega), statusCode_complete _ _, ?_⟩
  rw [decodeFrame_datagramHeaders hframe (by omega) (by omega) hcap]
  have toNat_ofNat {m : Nat} (h : m < 65536) : ((BitVec.ofNat 16 m).setWidth 32 : Word).toNat = m := by
    rw [toNat_setWidth_word, BitVec.toNat_ofNat, Nat.mod_eq_of_lt h]
  refine ⟨rfl, toNat_ofNat (by omega), fun i hi => ?_, macOf_congr rfl rfl, macOf_congr rfl rfl, rfl, rfl, rfl, rfl,
    toNat_ofNat (by omega), toNat_ofNat (by omega)⟩
  calc u.byteAt .rx (42 + i)
    _ = (encodeUdpDone n s).byteAt .tx (42 + i) := hcopy _ (by omega)
    _ = s.byteAt .tx (42 + i) := byteAt_encodeUdpDone_unchanged (by omega) (by omega)

/-! ## An ARP reply received -/

theorem halves_eq_iff (v : Word) (hi lo : Half) :
    v.extractLsb' 16 16 = hi ∧ v.extractLsb' 0 16 = lo ↔ v = hi ++ lo := by
  simp only [← BitVec.toNat_inj, toNat_append_eq_add, toNat_extract, Nat.reducePow]
  have := v.isLt
  have := lo.isLt
  omega

/-- The responder's match is the one on the registers (42_arp.md R141). -/
theorem arpRequestMatches_iff (s : State) :
    arpRequestMatches s.latch s.cfg.localIp = true ↔ RequestForUs s := by
  simp only [arpRequestMatches, Bool.and_eq_true, beq_iff_eq, and_assoc]
  obtain ⟨-, hclass, -⟩ := rxClass_bits_eq s.latch.rxClass
  rw [← and_assoc (a := s.latch.arpHrdPro.extractLsb' 16 16 = arpHrdEth), halves_eq_iff, ← hclass]
  rfl

/-- TX_LEN after a reply does not wrap. -/
theorem txLen_arpReplyDone {s : State} (hl : s.params.Legal) :
    (arpReplyDone s).txLen.toNat = max 42 s.params.minFrame := by
  obtain ⟨-, hmax, -, hmin⟩ := hl
  simp only [complete_txLen, buildFrame_txLen, BitVec.toNat_ofNat]
  omega

/-- What DECODE latches of a reply that ARP_HANDLE built (42_arp.md R141, R142). -/
theorem decodeFrame_arpReplyBytes {rd : Nat → Byte} {l : Latch} {c : ConfigRegs} {len : Nat} (cap : Half)
    (h : StandsAt rd 0 (arpReplyBytes l c)) (hlen : 42 ≤ len) :
    decodeFrame rd len cap =
      { Latch.cleared with
        ethDst := l.arpSha, ethSrc := c.localMac, ethertype := 0x0806, arpHrdPro := 0x00010800,
        arpLenOp := 0x06040002, arpSha := c.localMac, arpSpa := c.localIp, arpTha := l.arpSha, arpTpa := l.arpSpa,
        rxClass := .arp } := by
  obtain ⟨heth, harp⟩ := standsAt_arpReplyBytes.mp h
  obtain ⟨hdst, hsrc, htype⟩ := heth.ethHeader
  obtain ⟨hhrd, hpro, hhln, hpln, hop, hsha, hspa, htha, htpa⟩ := harp.arpReplyPacket
  rw [decodeFrame_arp cap hlen htype, hdst, hsrc, hhrd, hpro, hhln, hpln, hop, hsha, hspa, htha, htpa,
    ofMac_value, ofMac_value]
  rfl

/-- Settles O51: the reply's bytes stand in the receiver's RXBUF. -/
theorem arpReplyDecodesSwapped : Obligations.ArpReplyDecodesSwapped := by
  intro n s t u hlegal hreq hexec hparams hcopy
  have ⟨hmin, hmax, _, hframe⟩ := hlegal
  rw [execArpHandle_reply ((arpRequestMatches_iff s).mpr hreq)] at hexec
  obtain rfl : arpReplyDone s = t := Host.Outcome.next.inj hexec
  have htxLen : (readReg .txLen (arpReplyDone s)).toNat = max 42 s.params.minFrame :=
    (toNat_setWidth_word _).trans (txLen_arpReplyDone hlegal)
  rw [htxLen] at hcopy ⊢
  have hreply : StandsAt (u.byteAt .rx) 0 (arpReplyBytes s.latch s.cfg) :=
    (standsAt_arpReplyDone s).congr fun k hk => hcopy _ (by rw [arpReplyBytes_length] at hk; omega)
  refine ⟨_, execDecode_ok (by rw [hparams]; omega), ?_⟩
  rw [decodeFrame_arpReplyBytes u.cfg.rxCap hreply (by omega)]
  obtain ⟨-, hhrd, -, -⟩ := hreq
  exact ⟨rfl, hhrd.symm, rfl, macOf_congr rfl rfl, macOf_congr rfl rfl, macOf_congr rfl rfl, rfl,
    macOf_congr rfl rfl, rfl⟩

end Sys2Proof.Machine
end

section
/-! PROOF. ARP_HANDLE (42_arp.md R140 to R144): the words that spell it, its answer with and without a match, and
the registers the answer depends on. -/

namespace Sys2Proof.Machine

/-! ## The command and its two answers -/

theorem arpHandle_spelledBy : SpelledBy 0x00000004 0x0000FFFF (fun w => .arpHandle (lenField w)) := by
  apply spelledBy_of_row_len (r := ⟨"ARP_HANDLE", 0x00000004, 0x0000FFFF⟩) (by decide) (fun _ => rfl)
  intro i hi
  cases i with
  | arpHandle n => rfl
  | _ => simp [Instr.mnemonic] at hi

theorem execArpHandle_of_requestForUs {s : State} (h : RequestForUs s) (n : Nat) :
    exec (.arpHandle n) s = .next (arpReplyDone s) :=
  execArpHandle_reply ((arpRequestMatches_iff s).mpr h)

theorem execArpHandle_of_not_requestForUs {s : State} (h : ¬ RequestForUs s) (n : Nat) :
    exec (.arpHandle n) s = .next (complete .noError { s with arpReplied := false }) :=
  execArpHandle_noReply (Bool.eq_false_iff.mpr ((arpRequestMatches_iff s).not.mpr h))

/-! ## What an answer changes -/

/-- ARP_RESULT is read by its own register only. -/
theorem readReg_setArpReplied {r : Reg} (hr : r ≠ .arpResult) (b : Bool) (s : State) :
    readReg r { s with arpReplied := b } = readReg r s := by
  cases r
  case arpResult => exact absurd rfl hr
  all_goals rfl

/-- A completion after a write to ARP_RESULT. -/
theorem complete_setArpReplied_effect (b : Bool) (s : State) :
    Effect .noError [.arpResult] s (complete .noError { s with arpReplied := b }) where
  completed := ⟨rfl, rfl, rfl, rfl, rfl, rfl⟩
  own := ⟨rfl, rfl, rfl, rfl, rfl, rfl, rfl⟩
  regs r hr := by
    obtain ⟨hstatus, hresult⟩ : r ∉ [Reg.status] ∧ r ≠ .arpResult := by simpa using hr
    rw [(complete_effect .noError _).regs r hstatus, readReg_setArpReplied hresult]

theorem arpReplyDone_effect (s : State) : Effect .noError [.arpResult, .txLen] s (arpReplyDone s) where
  completed := by constructor <;> simp
  own := by constructor <;> simp
  regs r hr := by
    obtain ⟨hstatus, hresult, htxLen⟩ : r ∉ [Reg.status] ∧ r ≠ .arpResult ∧ r ≠ .txLen := by simpa using hr
    rw [(complete_effect .noError _).regs r hstatus, readReg_setArpReplied hresult, readReg_buildFrame htxLen]

theorem readReg_arpResult_arpReplyDone (s : State) : readReg .arpResult (arpReplyDone s) = 1 := rfl

theorem readReg_arpResult_noReply (s : State) :
    readReg .arpResult (complete .noError { s with arpReplied := false }) = 0 := rfl

/-! ## The bytes of TXBUF after a reply -/

theorem byteAt_arpReplyDone_header (s : State) {j : Nat} (hj : j < 42) :
    (arpReplyDone s).byteAt .tx j = (arpReplyBytes s.latch s.cfg).getD j 0 := by
  rw [byteAt_arpReplyDone, if_neg (by omega), if_pos hj]

theorem byteAt_arpReplyDone_padding {s : State} {j : Nat} (hlo : 42 ≤ j) (hhi : j < s.params.minFrame) :
    (arpReplyDone s).byteAt .tx j = 0 := by
  rw [byteAt_arpReplyDone, if_pos ⟨hlo, hhi⟩]

theorem byteAt_arpReplyDone_unchanged {s : State} {j : Nat} (hj : max 42 s.params.minFrame ≤ j) :
    (arpReplyDone s).byteAt .tx j = s.byteAt .tx j := by
  rw [byteAt_arpReplyDone, if_neg (by omega), if_neg (by omega)]

/-- Settles O49: without a match only ARP_RESULT is written; on a match the reply's bytes stand at the front of TXBUF,
so every field reads back, and the bytes after them are padding or unchanged. -/
theorem arpHandleResult : Obligations.ArpHandleResult := by
  refine ⟨arpHandle_spelledBy, fun n s hno => ?_, fun n s hlegal hreq => ?_⟩
  · exact ⟨_, execArpHandle_of_not_requestForUs hno n, complete_setArpReplied_effect false s,
      readReg_arpResult_noReply s, byteAt_congr (b := .rx) rfl rfl, byteAt_congr (b := .tx) rfl rfl⟩
  obtain ⟨heth, harp⟩ := standsAt_arpReplyBytes.mp (standsAt_arpReplyDone s)
  obtain ⟨hdst, hsrc, htype⟩ := heth.ethHeader
  obtain ⟨hhrd, hpro, hhln, hpln, hop, hsha, hspa, htha, htpa⟩ := harp.arpReplyPacket
  have hlocal : s.cfg.localMac.value = macOf .localMacHi .localMacLo s := (macOf_eq_value rfl rfl).symm
  have hsender : s.latch.arpSha.value = macOf .arpShaHi .arpShaLo s := (macOf_eq_value rfl rfl).symm
  exact ⟨arpReplyDone s, execArpHandle_of_requestForUs hreq n, arpReplyDone_effect s,
    readReg_arpResult_arpReplyDone s, (toNat_setWidth_word _).trans (txLen_arpReplyDone hlegal),
    hdst.trans hsender, hsrc.trans hlocal, htype, hhrd, hpro, hhln, hpln, hop, hsha.trans hlocal, hspa,
    htha.trans hsender, htpa, fun i hlo hhi => byteAt_arpReplyDone_padding hlo hhi,
    fun i hi => byteAt_arpReplyDone_unchanged hi, byteAt_congr (b := .rx) (by simp) (by simp)⟩

/-! ## The operands of ARP_HANDLE -/

/-- Two blocks whose ARP_HANDLE operands read alike hold the same request. -/
theorem requestForUs_congr {s u : State} (h : ∀ r ∈ arpOperands, readReg r s = readReg r u) :
    RequestForUs s ↔ RequestForUs u := by
  rw [RequestForUs, RequestForUs, h .rxClass (by decide), h .arpHrdPro (by decide), h .arpLenOp (by decide),
    h .arpTpa (by decide), h .localIp (by decide)]

/-- Two blocks whose ARP_HANDLE operands read alike build the same reply. -/
theorem arpReplyBytes_congr {s u : State} (h : ∀ r ∈ arpOperands, readReg r s = readReg r u) :
    arpReplyBytes s.latch s.cfg = arpReplyBytes u.latch u.cfg := by
  have hshaHi : s.latch.arpSha.hi = u.latch.arpSha.hi := setWidth_word_inj.mp (h .arpShaHi (by decide))
  have hshaLo : s.latch.arpSha.lo = u.latch.arpSha.lo := h .arpShaLo (by decide)
  have hspa : s.latch.arpSpa = u.latch.arpSpa := h .arpSpa (by decide)
  have hlmHi : s.cfg.localMac.hi = u.cfg.localMac.hi := setWidth_word_inj.mp (h .localMacHi (by decide))
  have hlmLo : s.cfg.localMac.lo = u.cfg.localMac.lo := h .localMacLo (by decide)
  have hlip : s.cfg.localIp = u.cfg.localIp := h .localIp (by decide)
  simp only [arpReplyBytes, MacReg.value, hshaHi, hshaLo, hspa, hlmHi, hlmLo, hlip]

/-- Settles O50: both blocks match or neither does, and a byte of the frame is one of the reply's or padding. -/
theorem arpHandleReadsOnlyItsOperands : Obligations.ArpHandleReadsOnlyItsOperands := by
  intro n m s u hparams hlegal hops
  by_cases hreq : RequestForUs s
  · have hrequ : RequestForUs u := (requestForUs_congr hops).mp hreq
    have ⟨hclass, _⟩ := hreq
    refine ⟨_, _, execArpHandle_of_requestForUs hreq n, execArpHandle_of_requestForUs hrequ m,
      (readReg_arpResult_arpReplyDone s).trans (readReg_arpResult_arpReplyDone u).symm,
      fun _ => ⟨?_, fun i hi => ?_⟩, fun hnoArp => absurd hclass hnoArp⟩
    · simp only [readReg, complete_txLen, buildFrame_txLen, hparams]
    rw [readReg, toNat_setWidth_word, txLen_arpReplyDone hlegal] at hi
    by_cases h42 : i < 42
    · rw [byteAt_arpReplyDone_header s h42, byteAt_arpReplyDone_header u h42, arpReplyBytes_congr hops]
    · have hmin : i < s.params.minFrame := by omega
      rw [byteAt_arpReplyDone_padding (by omega) hmin, byteAt_arpReplyDone_padding (by omega) (hparams ▸ hmin)]
  · have hnou : ¬ RequestForUs u := (requestForUs_congr hops).not.mp hreq
    have hs := readReg_arpResult_noReply s
    have hu := readReg_arpResult_noReply u
    exact ⟨_, _, execArpHandle_of_not_requestForUs hreq n, execArpHandle_of_not_requestForUs hnou m,
      hs.trans hu.symm, fun hone => absurd (hs.symm.trans hone) (by decide), fun _ => hs⟩

end Sys2Proof.Machine
end

section
/-! PROOF. MATCH_UDP (43_rx_filter.md R150 to R152): the words that spell it, the outcomes of the comparison, and what
it leaves alone. -/

namespace Sys2Proof.Machine

theorem matchUdp_spelledBy : SpelledBy 0x00000005 0x0000FFFF (fun w => .matchUdp (lenField w)) := by
  apply spelledBy_of_row_len (r := ⟨"MATCH_UDP", 0x00000005, 0x0000FFFF⟩) (by decide) (fun _ => rfl)
  intro i hi
  cases i with
  | matchUdp n => rfl
  | _ => simp [Instr.mnemonic] at hi

/-! ## The outcomes of the comparison -/

theorem matchDestination_eq_unicast_iff (l : Latch) (c : ConfigRegs) :
    matchDestination l c = .unicast ↔ l.rxClass = .udp ∧ l.ipDst = c.localIp ∧ l.udpDport = c.localPort := by
  fun_cases matchDestination l c with
  | case1 hclass => simp [hclass]
  | case2 hclass hlocal => simpa using ⟨Decidable.not_not.mp hclass, hlocal⟩
  | case3 _ hlocal _ => simp [hlocal]
  | case4 _ hlocal _ => simp [hlocal]

theorem matchDestination_eq_multicast_iff (l : Latch) (c : ConfigRegs) :
    matchDestination l c = .multicast ↔
      l.rxClass = .udp ∧ ¬ (l.ipDst = c.localIp ∧ l.udpDport = c.localPort) ∧
      c.mcastEn = true ∧ l.ipDst = c.mcastIp ∧ l.udpDport = c.mcastPort := by
  fun_cases matchDestination l c with
  | case1 hclass => simp [hclass]
  | case2 _ hlocal => simp [hlocal]
  | case3 hclass hlocal hgroup => simpa using ⟨Decidable.not_not.mp hclass, not_and.mp hlocal, hgroup⟩
  | case4 _ _ hgroup => simp [hgroup]

/-- MATCH_RESULT never reads its reserved value 3 (10_state.md R47). -/
theorem matchKind_bits_values (k : MatchKind) :
    k.bits.setWidth 32 = (0 : Word) ∨ k.bits.setWidth 32 = (1 : Word) ∨ k.bits.setWidth 32 = (2 : Word) := by
  cases k <;> decide

/-! ## What MATCH_UDP changes -/

/-- MATCH_RESULT is read by its own register only. -/
theorem readReg_setMatchKind {r : Reg} (hr : r ≠ .matchResult) (k : MatchKind) (s : State) :
    readReg r { s with matchKind := k } = readReg r s := by
  cases r
  case matchResult => exact absurd rfl hr
  all_goals rfl

/-- A completion after a write to MATCH_RESULT. -/
theorem complete_setMatchKind_effect (k : MatchKind) (s : State) :
    Effect .noError [.matchResult] s (complete .noError { s with matchKind := k }) where
  completed := ⟨rfl, rfl, rfl, rfl, rfl, rfl⟩
  own := ⟨rfl, rfl, rfl, rfl, rfl, rfl, rfl⟩
  regs r hr := by
    obtain ⟨hstatus, hresult⟩ : r ∉ [Reg.status] ∧ r ≠ .matchResult := by simpa using hr
    rw [(complete_effect .noError _).regs r hstatus, readReg_setMatchKind hresult]

theorem readReg_matchResult_complete (c : ErrCode) (k : MatchKind) (s : State) :
    readReg .matchResult (complete c { s with matchKind := k }) = k.bits.setWidth 32 := rfl

/-- Settles O52: MATCH_RESULT reads the comparison's outcome, and every operand is compared as its register reads. -/
theorem matchUdpResult : Obligations.MatchUdpResult := by
  refine ⟨matchUdp_spelledBy, fun n s => ⟨_, execMatchUdp_eq n s, complete_setMatchKind_effect _ s,
    byteAt_congr (b := .rx) rfl rfl, byteAt_congr (b := .tx) rfl rfl, ?_⟩⟩
  obtain ⟨-, hunicast, hmulticast⟩ := matchKind_bits_eq (matchDestination s.latch s.cfg)
  obtain ⟨-, -, hudp⟩ := rxClass_bits_eq s.latch.rxClass
  rw [readReg_matchResult_complete]
  simp only [readReg, setWidth_word_inj, flagBit_word_eq, hudp]
  exact ⟨hunicast.trans (matchDestination_eq_unicast_iff _ _),
    hmulticast.trans (matchDestination_eq_multicast_iff _ _), matchKind_bits_values _⟩

end Sys2Proof.Machine
end

section
/-! PROOF. Acceptance of a command word (44_control.md R160): what a host write to CMD does, busy or not. -/

namespace Sys2Proof.Machine

/-- A write to CMD of an idle block accepts the word, after a delay drawn for it (log 4). -/
theorem writeReg_cmd_idle {s : State} (hp : s.pend = none) (w : Word) :
    writeReg .cmd w s = loadCommand w (Config.engineDelay s.accepted) { s with accepted := s.accepted + 1 } := by
  simp [writeReg, offerCommand, State.busy, hp]

/-- Acceptance writes no register but STATUS. -/
theorem accept_sameRegs (w : Word) (delay n : Nat) (s : State) :
    SameRegs [.status] s (loadCommand w delay { s with accepted := n }) := by
  intro r hr
  cases r
  case status => exact absurd (List.mem_singleton.mpr rfl) hr
  all_goals rfl

/-- Settles O13: a write to CMD offers its word, which a busy block drops and an idle one loads. -/
theorem commandAcceptance : Obligations.CommandAcceptance := by
  refine fun s w => ⟨fun hp => ?_, fun hp => ?_⟩
  · exact (hostWrite_reg .cmd w s).trans (writeReg_of_busy (.inl rfl) hp w)
  · obtain ⟨hbusy, -, -, -⟩ :=
      statusWord_flags (loadCommand w (Config.engineDelay s.accepted) { s with accepted := s.accepted + 1 })
    exact ⟨_, (hostWrite_reg .cmd w s).trans (writeReg_cmd_idle hp w), rfl, rfl, rfl, rfl, rfl, rfl, hbusy,
      accept_sameRegs w _ _ s, fun _ => rfl, fun _ => rfl, rfl⟩

end Sys2Proof.Machine
end

section
/-! PROOF. The engine's step (44_control.md R161 to R166): it runs the decoded command, ends every pending command, and
does nothing but complete for NOP and for an illegal word. -/

namespace Sys2Proof.Machine

/-! ## The engine's step, and that every step answers a next state -/

/-- Settles O7: the engine's step of a legal word is its command. -/
theorem stepRunsDecodedCommand : Obligations.StepRunsDecodedCommand := by
  intro s w i hp hw hd
  rw [step_of_due hp hw, engineStep, hd]

/-- The engine's step answers a next state, be the word legal or not. -/
theorem engineStep_next (w : Word) (s : State) : ∃ t, engineStep w s = .next t := by
  unfold engineStep
  cases decodeWord w with
  | ok i => exact exec_next i s
  | error why => exact ⟨_, rfl⟩

/-- Settles O9: neither the engine's step of a due command nor a host turn stops the block. -/
theorem stepNeverStops : Obligations.StepNeverStops := by
  intro s
  cases hdue : dueCommand s with
  | some w =>
    obtain ⟨hw, hp⟩ := dueCommand_eq_some.mp hdue
    rw [step_of_due hp hw]
    exact engineStep_next w s
  | none => exact ⟨hostTurn s, by rw [step, hdue]⟩

/-! ## Commands that only complete -/

/-- STATUS after an illegal word, with HAZ and BUSERR clear (10_state.md R28): DONE and ERR = 1 make 0x12. -/
theorem readReg_status_illegalCmd {s : State} (hhaz : s.haz = false) (hbus : s.busErr = false) :
    readReg .status (complete .illegalCmd s) = s.lastOp.setWidth 32 <<< 8 ||| 0x12 := by
  have hfields : readReg .status (complete .illegalCmd s) =
      0#20 ++ s.lastOp ++ 0x1#4 ++ 0#1 ++ 0#1 ++ 1#1 ++ 0#1 := by
    simp [readReg, statusWord, State.busy, flagBit, ErrCode.bits, hhaz, hbus]
  rw [hfields]
  generalize s.lastOp = op
  revert op
  decide

/-- Settles O8: each of the three conditions denies one that every legal word meets, so the step is a completion. -/
theorem illegalWordCompletes : Obligations.IllegalWordCompletes := by
  intro s w hp hw hop hbad
  have hill : ¬ ∃ i, decodeWord w = .ok i := by
    rw [decodeWord_legal_bits]
    rintro ⟨hle, hrsv, hbuf⟩
    rcases hbad with hreserved | hrsv' | ⟨hbuf', hop'⟩
    · bv_omega
    · exact hrsv' hrsv
    · exact hbuf.elim (by simp [hbuf']) hop'
  exact ⟨_, step_of_illegal hp hw hill, complete_effect .illegalCmd s, byteAt_complete .illegalCmd s .rx,
    byteAt_complete .illegalCmd s .tx, hop, fun hhaz hbus => hop ▸ readReg_status_illegalCmd hhaz hbus⟩

theorem nop_spelledBy : SpelledBy 0x00000000 0x0000FFFF (fun w => .nop (lenField w)) := by
  apply spelledBy_of_row_len (r := ⟨"NOP", 0x00000000, 0x0000FFFF⟩) (by decide) (fun _ => rfl)
  intro i hi
  cases i with
  | nop n => rfl
  | _ => simp [Instr.mnemonic] at hi

/-- Settles O33: NOP is a completion without an error. -/
theorem nopOnlyCompletes : Obligations.NopOnlyCompletes :=
  ⟨nop_spelledBy, fun n s => ⟨_, execNop_eq n s, complete_effect .noError s, byteAt_complete .noError s .rx,
    byteAt_complete .noError s .tx⟩⟩

end Sys2Proof.Machine
end

section
/-! PROOF. The life of a pending command (44_control.md R163, R164): it stays alone until it is done or discarded, and
it is done after its delay unless a reset comes first. -/

namespace Sys2Proof.Machine

/-! ## One command at a time -/

/-- An input keeps a pending word, its opcode and its delay, or is a reset, which discards the word. -/
theorem InputEffect.keeps_or_discards {e : Input} {s t : State} (h : InputEffect e s t) (hp : s.pend ≠ none) :
    (t.pend = s.pend ∧ t.lastOp = s.lastOp ∧ t.engineWait = s.engineWait) ∨ t.pend = none := by
  cases h with
  | hardReset _ => exact .inr rfl
  | softReset _ => exact .inr rfl
  | accept h0 _ _ => exact absurd h0 hp
  | config h0 _ => exact absurd h0 hp
  | store _ h0 _ => exact absurd h0 hp
  | _ => exact .inl ⟨rfl, rfl, rfl⟩

/-- Settles O58: the engine's step ends the command, and a host turn keeps it, its delay one less, or discards it. -/
theorem oneCommandAtATime : Obligations.OneCommandAtATime := by
  intro s t w hp h
  rcases step_engine_or_host h with ⟨-, -, hf⟩ | ⟨hturn, rfl⟩
  · exact .inr hf.pend
  · have hw : s.engineWait ≠ 0 := hturn.resolve_left (by simp [hp])
    have hdelay : s.engineWait = s.engineWait - 1 + 1 := by omega
    rcases hostTurn_cases s with hidle | ⟨e, es, -, he⟩
    · rw [hidle]
      exact .inl ⟨hp, rfl, hdelay⟩
    · have hbusy : (atInput s es).pend ≠ none := by simp [atInput, hp]
      rcases he.keeps_or_discards hbusy with ⟨hpend, hop, hwait⟩ | hnone
      · exact .inl ⟨hpend.trans hp, hop, by rw [hwait]; exact hdelay⟩
      · exact .inr hnone

/-! ## Completion after the delay -/

/-- A run and a step after it are a run of one step more. -/
theorem Runs.concat {k : Nat} {s t u : State} (h : Runs k s t) (hstep : step t = .next u) : Runs (k + 1) s u := by
  induction k generalizing s with
  | zero =>
    obtain rfl := runs_zero.mp h
    exact runs_succ.mpr ⟨u, hstep, runs_zero.mpr rfl⟩
  | succ k ih =>
    obtain ⟨v, hv, hrun⟩ := runs_succ.mp h
    exact runs_succ.mpr ⟨v, hv, ih hrun⟩

/-- Settles O12: the turns of the delay lead to the engine's step, which completes the command whatever its word. -/
theorem pendingCommandCompletes : Obligations.PendingCommandCompletes := by
  intro s w hp hin
  obtain ⟨u, hrun, hu⟩ := runs_waiting (by simp [hp]) rfl hin
  have hdue : step u = engineStep w u := step_of_due (hu.pend.trans hp) hu.engineWait
  obtain ⟨t, ht⟩ := engineStep_next w u
  have hf := engineStep_frame ht
  exact ⟨t, hrun.concat (hdue.trans ht), hf.pend, hf.done⟩

end Sys2Proof.Machine
end

section
/-! PROOF. The codes commands end with, and when (60_exceptions.md R181, R184). -/

namespace Sys2Proof.Machine

/-! ## The code of a command's completion -/

/-- The code command `i` ends with when it runs in `s`; MTU_EXCEEDED goes before RANGE (60_exceptions.md R184). -/
def completionCode (i : Instr) (s : State) : ErrCode :=
  match i with
  | .csum _ n => if s.params.bufBytes < s.cfg.csumOff.toNat + n then .range else .noError
  | .encodeUdp n =>
    if s.cfg.mtu.toNat < n then .mtuExceeded else if s.params.bufBytes < 42 + n then .range else .noError
  | .decode n => if s.params.bufBytes < n then .range else .noError
  | .nop _ => .noError
  | .arpHandle _ => .noError
  | .matchUdp _ => .noError

theorem exec_err {i : Instr} {s t : State} (h : exec i s = .next t) : t.err = completionCode i s := by
  rcases exec_cases h with ⟨_, rfl, rfl⟩ | ⟨_, _, rfl, hr, rfl⟩ | ⟨_, _, rfl, hr, rfl⟩ | ⟨_, rfl, hm, rfl⟩ |
    ⟨_, rfl, hm, hr, rfl⟩ | ⟨_, rfl, hm, hr, rfl⟩ | ⟨_, rfl, hr, rfl⟩ | ⟨_, rfl, hr, rfl⟩ | ⟨_, rfl, -, rfl⟩ |
    ⟨_, rfl, -, rfl⟩ | ⟨_, rfl, rfl⟩ <;> rw [complete_err, completionCode]
  · rw [if_pos hr] -- CSUM past the buffer
  · rw [if_neg hr.not_gt] -- CSUM
  · rw [if_pos hm] -- ENCODE_UDP above the MTU
  · rw [if_neg hm.not_gt, if_pos hr] -- ENCODE_UDP past the buffer
  · rw [if_neg hm.not_gt, if_neg hr.not_gt] -- ENCODE_UDP
  · rw [if_pos hr] -- DECODE past the buffer
  · rw [if_neg hr.not_gt] -- DECODE

/-- The decoder refuses an illegal word, so no command reports one (44_control.md R166). -/
theorem completionCode_ne_illegalCmd (i : Instr) (s : State) : completionCode i s ≠ .illegalCmd := by
  cases i with
  | csum | encodeUdp | decode => simp only [completionCode]; split_ifs <;> simp
  | _ => nofun

theorem completionCode_eq_mtuExceeded_iff (i : Instr) (s : State) :
    completionCode i s = .mtuExceeded ↔ ∃ n, i = .encodeUdp n ∧ s.cfg.mtu.toNat < n := by
  cases i with
  | csum | encodeUdp | decode => simp only [completionCode]; split_ifs <;> simp [*]
  | _ => simp [completionCode]

theorem completionCode_eq_range_iff (i : Instr) (s : State) :
    completionCode i s = .range ↔
      (∃ b n, i = .csum b n ∧ s.params.bufBytes < s.cfg.csumOff.toNat + n) ∨
      (∃ n, i = .encodeUdp n ∧ n ≤ s.cfg.mtu.toNat ∧ s.params.bufBytes < 42 + n) ∨
      (∃ n, i = .decode n ∧ s.params.bufBytes < n) := by
  cases i with
  | encodeUdp n =>
    by_cases hm : s.cfg.mtu.toNat < n
    · simp [completionCode, hm]
    · simp [completionCode, hm, not_lt.mp hm]
  | _ => simp [completionCode]

/-! ## Its number in STATUS -/

theorem statusCode_eq (s : State) : statusCode s = errorNumber s.err := by
  rw [statusCode, readReg, statusWord_err, errBits_toNat]

/-- The codes are told apart by their numbers (60_exceptions.md R181). -/
theorem errorNumber_eq_iff (c : ErrCode) :
    (errorNumber c = 2 ↔ c = .mtuExceeded) ∧ (errorNumber c = 3 ↔ c = .range) ∧
    (c ≠ .illegalCmd → errorNumber c = 0 ∨ errorNumber c = 2 ∨ errorNumber c = 3) := by
  cases c <;> decide

/-- Settles O31: STATUS reads the number of the command's code, and each code has the causes of the branch that
raises it. -/
theorem errorCodesAndCauses : Obligations.ErrorCodesAndCauses := by
  intro i s t h
  obtain ⟨hmtu, hrange, hcodes⟩ := errorNumber_eq_iff (completionCode i s)
  have hmtuReg : (readReg .mtu s).toNat = s.cfg.mtu.toNat := toNat_setWidth_word _
  have hoffReg : (readReg .csumOff s).toNat = s.cfg.csumOff.toNat := toNat_setWidth_word _
  rw [statusCode_eq, exec_err h, hmtuReg, hoffReg]
  exact ⟨hcodes (completionCode_ne_illegalCmd i s), hmtu.trans (completionCode_eq_mtuExceeded_iff i s),
    hrange.trans (completionCode_eq_range_iff i s)⟩

end Sys2Proof.Machine
end

section
/-! PROOF. The interrupt output (60_exceptions.md R186): its level, and what raises and clears it. -/

namespace Sys2Proof.Machine

/-! ## The level -/

theorem irq_eq_true_iff (s : State) : s.irq = true ↔ s.irqEn = true ∧ s.done = true := Bool.and_eq_true_iff

theorem irq_of_done {s : State} (h : s.done = true) : s.irq = s.irqEn := by rw [State.irq, h, Bool.and_true]

theorem irq_of_not_done {s : State} (h : s.done = false) : s.irq = false := by rw [State.irq, h, Bool.and_false]

/-- IRQ_EN stands in CTRL[0] (10_state.md R27). -/
theorem ctrlWord_getLsbD_zero (s : State) : (ctrlWord s).getLsbD 0 = s.irqEn := by
  rw [ctrlWord_eq]
  cases s.irqEn <;> rfl

/-! ## Writes to CTRL -/

theorem hostWrite_ctrl (v : Word) (s : State) : hostWrite 0x004 (.word v) s = writeCtrl v s := hostWrite_reg .ctrl v s

theorem hostWrite_ctrl_srst {v : Word} (hv : v.getLsbD 1 = true) (s : State) :
    hostWrite 0x004 (.word v) s = softReset s := by
  rw [hostWrite_ctrl, writeCtrl, if_pos hv]

theorem hostWrite_ctrl_irqEn {v : Word} (hv : v.getLsbD 1 = false) (s : State) :
    hostWrite 0x004 (.word v) s = { s with irqEn := v.getLsbD 0 } := by
  rw [hostWrite_ctrl, writeCtrl, hv, if_neg Bool.false_ne_true]

/-! ## What an input can raise -/

/-- No input sets DONE. -/
theorem InputEffect.done_before {e : Input} {s t : State} (h : InputEffect e s t) (hd : t.done = true) :
    s.done = true := by
  cases h with
  | hardReset _ => cases hd
  | softReset _ => cases hd
  | accept _ _ _ => cases hd
  | status _ => exact (Bool.and_eq_true_iff.mp hd).1
  | @store _ _ b _ _ _ _ => cases b <;> exact hd
  | _ => exact hd

/-- Of the registers only CTRL takes a write that sets IRQ_EN. -/
theorem writeReg_irqEn {r : Reg} {w : Word} {s : State} (h : (writeReg r w s).irqEn = true) :
    s.irqEn = true ∨ (r = .ctrl ∧ w.getLsbD 0 = true) := by
  rcases writeReg_cases r w s with ⟨-, -, hw⟩ | ⟨hr, -, hw⟩ | ⟨-, hw⟩ | ⟨-, -, hw⟩ | ⟨-, -, hw⟩ | ⟨-, -, hw⟩ |
    ⟨-, -, -, -, hw⟩ <;> rw [hw] at h
  · cases h -- a soft reset
  · exact .inr ⟨hr, h⟩
  all_goals exact .inl h

theorem hostWrite_irqEn {a : HostAddr} {v : HostData} {s : State} (h : (hostWrite a v s).irqEn = true) :
    s.irqEn = true ∨ ∃ w, a = 0x004 ∧ v = .word w ∧ w.getLsbD 0 = true := by
  rcases hostWrite_cases a v s with ⟨-, hw⟩ | ⟨-, hw⟩ | ⟨r, ht, hw⟩ | ⟨_, _, -, -, hw⟩ | ⟨b, _, -, -, hw⟩ <;>
    rw [hw] at h
  · exact .inl h
  · exact .inl h
  · obtain ⟨rfl, w, rfl⟩ := eq_of_resolve_width_reg ht
    exact (writeReg_irqEn h).imp_right fun ⟨hr, hbit⟩ => ⟨w, by rw [hr]; rfl, rfl, hbit⟩
  · exact .inl h
  · exact .inl (by cases b <;> exact h)

/-- Of the inputs only a write to CTRL with bit 0 set sets IRQ_EN. -/
theorem performInput_irqEn {e : Input} {s : State} (h : (performInput e s).irqEn = true) :
    s.irqEn = true ∨ ∃ v, e = .write 0x004 (.word v) ∧ v.getLsbD 0 = true := by
  rcases performInput_cases e s with ⟨a, v, rfl, he⟩ | ⟨-, he⟩ | ⟨_, _, _, _, he, -⟩ <;> rw [he] at h
  · exact (hostWrite_irqEn h).imp_right fun ⟨w, ha, hv, hbit⟩ => ⟨w, by rw [ha, hv], hbit⟩
  · cases h -- a hardware reset
  · exact .inl h

/-- An input leaves IRQ 1 only where it was 1, or by setting IRQ_EN while DONE is 1. -/
theorem performInput_irq {e : Input} {s : State} (h : (performInput e s).irq = true) :
    s.irq = true ∨ ∃ v, e = .write 0x004 (.word v) ∧ v.getLsbD 0 = true ∧ s.done = true := by
  obtain ⟨hen, hdone⟩ := (irq_eq_true_iff _).mp h
  have hd : s.done = true := (performInput_effect e s).done_before hdone
  rcases performInput_irqEn hen with hen' | ⟨v, he, hbit⟩
  · exact .inl ((irq_eq_true_iff s).mpr ⟨hen', hd⟩)
  · exact .inr ⟨v, he, hbit, hd⟩

/-- Settles O25: IRQ follows the two flags it is the conjunction of; every completion sets DONE, and acceptance, the
acknowledgement and both resets clear it. -/
theorem interruptFollowsDone : Obligations.InterruptFollowsDone := by
  refine ⟨fun s => ?_, fun s t w hp hw h => ?_, fun s v hd h0 h1 => ?_, fun s e h => performInput_irq h,
    fun s w hp => ?_, fun s v h1 => ?_, fun s v h1 => ?_, fun s => irq_of_not_done (hardReset_done s)⟩
  · obtain ⟨-, hdone, -, -⟩ := statusWord_flags s
    rw [readReg, readReg, ctrlWord_getLsbD_zero, hdone, State.irq]
  · rw [step_of_due hp hw] at h
    have hf := engineStep_frame h
    rw [irq_of_done hf.done, hf.irqEn]
  · rw [hostWrite_ctrl_irqEn h1]
    exact (irq_eq_true_iff _).mpr ⟨h0, hd⟩
  · rw [show hostWrite 0x00C (.word w) s = _ from (hostWrite_reg .cmd w s).trans (writeReg_cmd_idle hp w)]
    exact irq_of_not_done (loadCommand_done _ _ _)
  · rw [show hostWrite 0x008 (.word v) s = writeStatus v s from hostWrite_reg .status v s]
    exact irq_of_not_done (by rw [writeStatus_done, h1, Bool.not_true, Bool.and_false])
  · rw [hostWrite_ctrl_srst h1]
    exact irq_of_not_done (softReset_done s)

end Sys2Proof.Machine
end

section
/-! PROOF. An idle block at rest (60_exceptions.md R194). -/

namespace Sys2Proof.Machine

/-- Settles O10: with no input the step is a host turn that only shortens the engine's delay, which is 0 already. -/
theorem idleHoldsState : Obligations.IdleHoldsState := by
  intro s hp hin hw
  have hdelay : s.engineWait - 1 = s.engineWait := by rw [hw]
  rw [step_of_no_input (.inl hp) hin, hdelay]

end Sys2Proof.Machine
end

section
/-! PROOF. The two resets (70_reset_and_hazards.md R200 to R202): the values of the registers, and what becomes of the
buffers. -/

namespace Sys2Proof.Machine

/-! ## Every reset is a soft reset of some state -/

/-- A soft reset of a block right after a hardware reset changes nothing. -/
theorem softReset_resetWith (p : Config.Params) : softReset (State.resetWith p) = State.resetWith p := rfl

/-- The reset input is a soft reset with the buffers forgotten (70_reset_and_hazards.md R200, R202). -/
theorem hardReset_eq_softReset (s : State) :
    hardReset s = softReset { s with rx := [], tx := [], epoch := s.epoch + 1 } := rfl

/-! ## What the registers read after a reset -/

/-- Row by row of the register map, a soft reset leaves the value of the last column (10_state.md R25). -/
theorem readReg_softReset (r : Reg) (s : State) : readReg r (softReset s) = resetValue r := by
  cases r with
  | ctrl => exact (by decide : ctrlWord State.reset = 0)
  | status => exact (by decide : statusWord State.reset = 0)
  | _ => rfl

theorem readReg_hardReset (r : Reg) (s : State) : readReg r (hardReset s) = resetValue r := by
  rw [hardReset_eq_softReset, readReg_softReset]

theorem readReg_resetWith (r : Reg) (p : Config.Params) : readReg r (State.resetWith p) = resetValue r := by
  rw [← softReset_resetWith, readReg_softReset]

/-! ## The statements -/

/-- Settles O27: the state right after reset and the state the reset input leaves hold the registers a soft reset
leaves. -/
theorem resetValues : Obligations.ResetValues :=
  ⟨fun r => readReg_resetWith r _, rfl, rfl, fun s =>
    ⟨hardReset s, rfl, fun r => readReg_hardReset r s, hardReset_pend s, irq_of_not_done (hardReset_done s),
      hardReset_params s⟩⟩

/-- Settles O28: the reset input lists no byte of either buffer, so each reads as its free value. -/
theorem hardResetDrawsBuffers : Obligations.HardResetDrawsBuffers := byteAt_hardReset

/-- Settles O26: the write is a soft reset, in every state. -/
theorem softResetKeepsBuffers : Obligations.SoftResetKeepsBuffers := fun s _ hv =>
  ⟨softReset s, hostWrite_ctrl_srst hv s, fun r => readReg_softReset r s, softReset_pend s, softReset_done s,
    softReset_irqEn s, byteAt_softReset s .rx, byteAt_softReset s .tx, softReset_params s⟩

end Sys2Proof.Machine
end
